-- ==== Sys2Proof/Word.lean ====
section
/-!
DEFINITION. The word types of the block and the seven-byte frame (10_state.md R20 to R25, 30_encoding.md R70).
Every value is unsigned (00_scope.md section 6.1).
-/

namespace Sys2Proof

/-- Four bits: a command code, a checksum. -/
abbrev Nibble := BitVec 4

/-- Eight bits: a byte of a frame, a key. -/
abbrev Byte := BitVec 8

/-- A rolling code (R21). -/
abbrev Code := BitVec 16

/-- The identity of a paired receiver (R20). -/
abbrev Addr := BitVec 24

/-- A frame as the 56-bit value `F[55:0]` (R70). -/
abbrev FrameBits := BitVec 56

/-- A line level: `true` is high (1), `false` is low (0) (00_scope.md section 6.1). -/
abbrev Level := Bool

/-- The array `FRAME[0..6]` of seven bytes, `b0` first on the line (R25). -/
structure Frame where
  b0 : Byte
  b1 : Byte
  b2 : Byte
  b3 : Byte
  b4 : Byte
  b5 : Byte
  b6 : Byte
  deriving DecidableEq, Repr

end Sys2Proof
end

