-- ==== Sys2Proof/Config.lean ====
section
/-!
DEFINITION. What an implementation fixes (00_scope.md section 4, R5 to R10), the ten command names and their code
table (30_encoding.md R76), and the free values of the registers nothing has written (10_state.md R41, R47).
-/

namespace Sys2Proof

/-- The closed set of ten commands, in the source's order (R76). -/
inductive Command where
  | my
  | up
  | myUp
  | down
  | myDown
  | upDown
  | myUpDown
  | prog
  | sunFlag
  | flag
  deriving DecidableEq, Repr

/-- The ten names in listing order (R76). -/
def Command.all : List Command :=
  [.my, .up, .myUp, .down, .myDown, .upDown, .myUpDown, .prog, .sunFlag, .flag]

/-- Which 4-bit code each command has (R76, D4: "A model should take the table as a `Config` field"). -/
structure CodeTable where
  my : Nibble
  up : Nibble
  myUp : Nibble
  down : Nibble
  myDown : Nibble
  upDown : Nibble
  myUpDown : Nibble
  prog : Nibble
  sunFlag : Nibble
  flag : Nibble
  deriving DecidableEq, Repr

/-- The code of a command under a table. -/
def CodeTable.code (t : CodeTable) : Command → Nibble
  | .my => t.my
  | .up => t.up
  | .myUp => t.myUp
  | .down => t.down
  | .myDown => t.myDown
  | .upDown => t.upDown
  | .myUpDown => t.myUpDown
  | .prog => t.prog
  | .sunFlag => t.sunFlag
  | .flag => t.flag

/-- A legal table is a bijection onto 0x1..0xA with Up = 0x2 (00_scope.md section 4, R77, U24). -/
def CodeTable.valid (t : CodeTable) : Bool :=
  Command.all.all (fun c => 1 ≤ t.code c && t.code c ≤ 10) && decide (Command.all.map t.code).Nodup && t.up == 2

/-- The assignment the spec decides: the n-th name has code n (R76, D4). PRESUMED for all but Up (log 5). -/
def CodeTable.decided : CodeTable where
  my := 1
  up := 2
  myUp := 3
  down := 4
  myDown := 5
  upDown := 6
  myUpDown := 7
  prog := 8
  sunFlag := 9
  flag := 10

/-- The protocol constants and the open parameters (00_scope.md section 4). Durations are microseconds (R9). -/
structure Config where
  tHalf : Nat
  tWakeHigh : Nat
  tWakeLow : Nat
  tHwsync : Nat
  nSyncOnce : Nat
  nSyncRepeat : Nat
  tSwsyncHigh : Nat
  tGap : Nat
  /-- Width in bits of the repetitions operand; `none` is unbounded (D7). -/
  repW : Option Nat
  codes : CodeTable
  deriving DecidableEq, Repr

/-- The duration of one whole data bit (R8). -/
def Config.tSymbol (c : Config) : Nat := 2 * c.tHalf

/-- The constraints of 00_scope.md section 4 (R7, R10). A `Config` that breaks one is refused by `step`. -/
def Config.valid (c : Config) : Bool :=
  decide (0 < c.tHalf) && decide (0 < c.tWakeHigh) && decide (0 < c.tWakeLow) && decide (0 < c.tHwsync)
    && decide (1 ≤ c.nSyncOnce) && decide (c.nSyncOnce < c.nSyncRepeat)
    && decide (0 < c.tSwsyncHigh) && decide (c.tSwsyncHigh ≠ c.tHalf) && decide (c.tSwsyncHigh ≠ c.tHwsync)
    && decide (0 < c.tGap)
    && (match c.repW with
        | none => true
        | some w => decide (1 ≤ w))
    && c.codes.valid

/-- Does a repetitions value fit `REP_W` bits (D7)? -/
def Config.fits (c : Config) (reps : Nat) : Bool :=
  match c.repW with
  | none => true
  | some w => decide (reps < 2 ^ w)

/-- A natural cut to `REP_W` bits: the limit the spec sets on the unspecified `REPS` (R24). -/
def Config.limitReps (c : Config) (n : Nat) : Nat :=
  match c.repW with
  | none => n
  | some w => n % 2 ^ w

/-- PRESUMED (log 4): the reference column of 00_scope.md section 4 (U12), the spec's own example values. -/
def Config.reference : Config where
  tHalf := 604
  tWakeHigh := 9415
  tWakeLow := 89565
  tHwsync := 2416
  nSyncOnce := 2
  nSyncRepeat := 7
  tSwsyncHigh := 4550
  tGap := 30415
  repW := none
  codes := CodeTable.decided

/-! Free values: what a register holds that nothing has written since reset (R41, R47, U6, U29; log 3). The argument
is the draw counter of State. -/

/-- DESIGN CHOICE (log 3): `KEY` after reset, any value. -/
opaque Config.freeKey : Nat → Byte

/-- DESIGN CHOICE (log 3): `ADDRESS` after reset, any value. -/
opaque Config.freeAddress : Nat → Addr

/-- DESIGN CHOICE (log 3): `ROLLING_CODE` after reset, any value. -/
opaque Config.freeRollingCode : Nat → Code

/-- DESIGN CHOICE (log 3): `CMD` after reset, any value. -/
opaque Config.freeCmd : Nat → Nibble

/-- DESIGN CHOICE (log 3): `REPS` after reset, any value of its width (cut by `Config.limitReps`). -/
opaque Config.freeReps : Nat → Nat

/-- DESIGN CHOICE (log 3): `FRAME` after reset, any value. -/
opaque Config.freeFrame : Nat → FrameBits

end Sys2Proof
end

