-- ==== Sys2Proof/Syntax.lean ====
section
/-!
DEFINITION. The instructions: one constructor per row of spec/opcode_table.json (30_encoding.md R91).
-/

namespace Sys2Proof

/-- The ten commands carry the fields of their plain frame (R70); the host operations and store transactions carry the
operands of R88 and R90. -/
inductive Instr where
  /-- My (R100), as a plain frame. -/
  | my (key : Byte) (checksum : Nibble) (rc : Code) (addr : Addr)
  /-- Up (R101). -/
  | up (key : Byte) (checksum : Nibble) (rc : Code) (addr : Addr)
  /-- MyUp (R102). -/
  | myUp (key : Byte) (checksum : Nibble) (rc : Code) (addr : Addr)
  /-- Down (R103). -/
  | down (key : Byte) (checksum : Nibble) (rc : Code) (addr : Addr)
  /-- MyDown (R104). -/
  | myDown (key : Byte) (checksum : Nibble) (rc : Code) (addr : Addr)
  /-- UpDown (R105). -/
  | upDown (key : Byte) (checksum : Nibble) (rc : Code) (addr : Addr)
  /-- MyUpDown (R106). -/
  | myUpDown (key : Byte) (checksum : Nibble) (rc : Code) (addr : Addr)
  /-- Prog (R107). -/
  | prog (key : Byte) (checksum : Nibble) (rc : Code) (addr : Addr)
  /-- SunFlag (R108). -/
  | sunFlag (key : Byte) (checksum : Nibble) (rc : Code) (addr : Addr)
  /-- Flag (R109). -/
  | flag (key : Byte) (checksum : Nibble) (rc : Code) (addr : Addr)
  /-- The Manchester symbol of a data bit 1 (R74). -/
  | bit1
  /-- The Manchester symbol of a data bit 0 (R74). -/
  | bit0
  /-- CREATE (R180). -/
  | create (key : Byte) (addr : Addr) (rc : Code)
  /-- BUILD (R120); `cmd` is the raw nibble of the port. -/
  | build (key : Byte) (cmd : Nibble) (rc : Code) (addr : Addr)
  /-- SEND (R160); `frame` is a whitened frame, byte 0 in bits 55:48. -/
  | send (frame : FrameBits) (reps : Nat)
  /-- SEND_REPEAT (R181); `cmd` is the raw nibble of the port. -/
  | sendRepeat (cmd : Nibble) (reps : Nat)
  /-- LOAD (R200). -/
  | load
  /-- PERSIST (R202). -/
  | persist (addr : Addr) (rc : Code)
  deriving DecidableEq, Repr

/-- The instruction of a command's plain frame with the given fields (R70, R91). -/
def Instr.command (c : Command) (key : Byte) (checksum : Nibble) (rc : Code) (addr : Addr) : Instr :=
  match c with
  | .my => .my key checksum rc addr
  | .up => .up key checksum rc addr
  | .myUp => .myUp key checksum rc addr
  | .down => .down key checksum rc addr
  | .myDown => .myDown key checksum rc addr
  | .upDown => .upDown key checksum rc addr
  | .myUpDown => .myUpDown key checksum rc addr
  | .prog => .prog key checksum rc addr
  | .sunFlag => .sunFlag key checksum rc addr
  | .flag => .flag key checksum rc addr

end Sys2Proof
end

