-- ==== Sys2Proof/WellFormed.lean ====
section
/-!
DEFINITION. Which instructions can stand on a port: the fields' types fix every width but that of the repetitions
operand, which has `REP_W` bits (00_scope.md section 4, D7).
-/

namespace Sys2Proof

/-- The repetitions operand of SEND and SEND_REPEAT fits `REP_W` bits; every other instruction is well formed. The
checksum nibble of a plain frame may be any value here: a command is recognised by `F[47:44]` alone (R78). -/
def Instr.wellFormed (c : Config) : Instr → Bool
  | .my _ _ _ _ => true
  | .up _ _ _ _ => true
  | .myUp _ _ _ _ => true
  | .down _ _ _ _ => true
  | .myDown _ _ _ _ => true
  | .upDown _ _ _ _ => true
  | .myUpDown _ _ _ _ => true
  | .prog _ _ _ _ => true
  | .sunFlag _ _ _ _ => true
  | .flag _ _ _ _ => true
  | .bit1 => true
  | .bit0 => true
  | .create _ _ _ => true
  | .build _ _ _ _ => true
  | .send _ reps => c.fits reps
  | .sendRepeat _ reps => c.fits reps
  | .load => true
  | .persist _ _ => true

end Sys2Proof
end

