-- ==== Sys2Proof/Decode.lean ====
section
/-!
DEFINITION. Bit fields of a frame, the words of the four formats (30_encoding.md section 1), the decoder, the encoder,
the table's word numbering, and the text spelling of commands (R81 to R84).
-/

namespace Sys2Proof

/-! ### Bit fields (00_scope.md section 6.1) -/

/-- `b[7:4]`. -/
def hi4 (b : Byte) : Nibble := b.extractLsb' 4 4

/-- `b[3:0]`. -/
def lo4 (b : Byte) : Nibble := b.extractLsb' 0 4

/-- The byte with high nibble `h` and low nibble `l`: `(h << 4) | l` (R71). -/
def joinNibbles (h l : Nibble) : Byte := h.setWidth 8 <<< 4 ||| l.setWidth 8

/-- The high byte of a rolling code, plain byte 2 (R52). -/
def codeHi (rc : Code) : Byte := rc.extractLsb' 8 8

/-- The low byte of a rolling code, plain byte 3 (R52). -/
def codeLo (rc : Code) : Byte := rc.extractLsb' 0 8

/-- The big-endian decode of plain bytes 2 and 3: `(P[2] << 8) | P[3]` (R132). -/
def joinCode (hi lo : Byte) : Code := hi.setWidth 16 <<< 8 ||| lo.setWidth 16

/-- `address[7:0]`, plain byte 4 (R53). -/
def addrLo (a : Addr) : Byte := a.extractLsb' 0 8

/-- `address[15:8]`, plain byte 5 (R53). -/
def addrMid (a : Addr) : Byte := a.extractLsb' 8 8

/-- `address[23:16]`, plain byte 6 (R53). -/
def addrHi (a : Addr) : Byte := a.extractLsb' 16 8

/-- The little-endian decode of plain bytes 4, 5 and 6: `P[4] | (P[5] << 8) | (P[6] << 16)` (R132). -/
def joinAddr (lo mid hi : Byte) : Addr := lo.setWidth 24 ||| mid.setWidth 24 <<< 8 ||| hi.setWidth 24 <<< 16

/-- A frame as `F[55:0]`, byte 0 in bits 55:48 (00_scope.md section 6.1). -/
def Frame.toBits (f : Frame) : FrameBits :=
  f.b0.setWidth 56 <<< 48 ||| f.b1.setWidth 56 <<< 40 ||| f.b2.setWidth 56 <<< 32 ||| f.b3.setWidth 56 <<< 24
    ||| f.b4.setWidth 56 <<< 16 ||| f.b5.setWidth 56 <<< 8 ||| f.b6.setWidth 56

/-- `FRAME[i] = F[55-8*i : 48-8*i]` (00_scope.md section 6.1). -/
def Frame.ofBits (w : FrameBits) : Frame where
  b0 := w.extractLsb' 48 8
  b1 := w.extractLsb' 40 8
  b2 := w.extractLsb' 32 8
  b3 := w.extractLsb' 24 8
  b4 := w.extractLsb' 16 8
  b5 := w.extractLsb' 8 8
  b6 := w.extractLsb' 0 8

/-- The seven bytes in line order. -/
def Frame.bytes (f : Frame) : List Byte := [f.b0, f.b1, f.b2, f.b3, f.b4, f.b5, f.b6]

/-- The byte at an index, 0 to 6 (R50); no rule uses another index. -/
def Frame.byte (f : Frame) (i : Nat) : Byte := f.bytes.getD i 0

/-- Data bit `n` of a frame, `FRAME[n div 8][7 - (n mod 8)]` (R55). -/
def Frame.dataBit (f : Frame) (n : Nat) : Bool := (f.byte (n / 8)).getLsbD (7 - n % 8)

/-! ### Command codes (R76) -/

/-- The command a nibble stands for, if any (R76, R79). -/
def CodeTable.commandOf (t : CodeTable) (n : Nibble) : Option Command :=
  Command.all.find? (fun c => t.code c == n)

/-! ### Plain frames as fields (R70, R132) -/

/-- The plain frame of the given fields, as seven bytes (R70). -/
def plainFrame (key : Byte) (cmd checksum : Nibble) (rc : Code) (addr : Addr) : Frame where
  b0 := key
  b1 := joinNibbles cmd checksum
  b2 := codeHi rc
  b3 := codeLo rc
  b4 := addrLo addr
  b5 := addrMid addr
  b6 := addrHi addr

/-- The rolling code carried by a plain frame (R132). -/
def Frame.plainCode (p : Frame) : Code := joinCode p.b2 p.b3

/-- The address carried by a plain frame (R132). -/
def Frame.plainAddr (p : Frame) : Addr := joinAddr p.b4 p.b5 p.b6

/-! ### Words of the four formats -/

/-- The signals of the host command port (R42); an operation ignores the operands it does not use. -/
structure HostWord where
  opSel : BitVec 3
  opKey : Byte
  opCmd : Nibble
  opRc : Code
  opAddr : Addr
  opFrame : FrameBits
  opReps : Nat
  deriving DecidableEq, Repr

/-- A word in one of the four formats that name instructions (30_encoding.md section 1, R91). -/
inductive PortWord where
  /-- `PF`: a plain frame. -/
  | pf (bits : FrameBits)
  /-- `MS`: two pulse levels, the first sent on the left (bit 1). -/
  | ms (pulses : BitVec 2)
  /-- `HO`: the signals of the command port. -/
  | ho (w : HostWord)
  /-- `ST`: the signals of the store port. -/
  | st (stOp : BitVec 1) (stAddr : Addr) (stRc : Code)
  deriving DecidableEq, Repr

/-- Why a word is no instruction. -/
inductive DecodeReject where
  /-- `op_sel` is 0b000, 0b101, 0b110 or 0b111 (R88, R89). -/
  | reservedOpSel
  /-- The command nibble of a plain frame belongs to no command (R79). -/
  | reservedCommand
  /-- Two pulses of one level are no data bit (R74). -/
  | noSymbol
  deriving DecidableEq, Repr

/-- Plain frame: the command is recognised by `F[47:44]` alone (R78). -/
def decodePlain (t : CodeTable) (bits : FrameBits) : Except DecodeReject Instr :=
  let p := Frame.ofBits bits
  match t.commandOf (hi4 p.b1) with
  | some c => .ok (Instr.command c p.b0 (lo4 p.b1) p.plainCode p.plainAddr)
  | none => .error .reservedCommand

/-- Manchester symbol: 1 is low then high, 0 is high then low (R74). -/
def decodeSymbol (pulses : BitVec 2) : Except DecodeReject Instr :=
  if pulses = 0b01#2 then .ok .bit1
  else if pulses = 0b10#2 then .ok .bit0
  else .error .noSymbol

/-- Host operation, selected by `op_sel` (R88, R89). -/
def decodeHost (w : HostWord) : Except DecodeReject Instr :=
  if w.opSel = 0b001#3 then .ok (.create w.opKey w.opAddr w.opRc)
  else if w.opSel = 0b010#3 then .ok (.build w.opKey w.opCmd w.opRc w.opAddr)
  else if w.opSel = 0b011#3 then .ok (.send w.opFrame w.opReps)
  else if w.opSel = 0b100#3 then .ok (.sendRepeat w.opCmd w.opReps)
  else .error .reservedOpSel

/-- Store transaction, selected by `st_op` (R90). -/
def decodeStore (stOp : BitVec 1) (stAddr : Addr) (stRc : Code) : Except DecodeReject Instr :=
  if stOp = 0#1 then .ok .load else .ok (.persist stAddr stRc)

/-- The decoder: total on every word of every format (R91). -/
def decode (t : CodeTable) : PortWord → Except DecodeReject Instr
  | .pf bits => decodePlain t bits
  | .ms pulses => decodeSymbol pulses
  | .ho w => decodeHost w
  | .st stOp stAddr stRc => decodeStore stOp stAddr stRc

/-! ### The encoder -/

/-- The command port with nothing on its operand signals. -/
def HostWord.idle (sel : BitVec 3) : HostWord where
  opSel := sel
  opKey := 0
  opCmd := 0
  opRc := 0
  opAddr := 0
  opFrame := 0
  opReps := 0

/-- The plain-frame word of a command (R70, R110). -/
def encodePlain (t : CodeTable) (c : Command) (key : Byte) (checksum : Nibble) (rc : Code) (addr : Addr) : PortWord :=
  .pf (plainFrame key (t.code c) checksum rc addr).toBits

/-- The word of an instruction, written from R70, R74, R88 and R90; unused operand signals are 0. -/
def encode (t : CodeTable) : Instr → PortWord
  | .my key cs rc addr => encodePlain t .my key cs rc addr
  | .up key cs rc addr => encodePlain t .up key cs rc addr
  | .myUp key cs rc addr => encodePlain t .myUp key cs rc addr
  | .down key cs rc addr => encodePlain t .down key cs rc addr
  | .myDown key cs rc addr => encodePlain t .myDown key cs rc addr
  | .upDown key cs rc addr => encodePlain t .upDown key cs rc addr
  | .myUpDown key cs rc addr => encodePlain t .myUpDown key cs rc addr
  | .prog key cs rc addr => encodePlain t .prog key cs rc addr
  | .sunFlag key cs rc addr => encodePlain t .sunFlag key cs rc addr
  | .flag key cs rc addr => encodePlain t .flag key cs rc addr
  | .bit1 => .ms 0b01#2
  | .bit0 => .ms 0b10#2
  | .create key addr rc => .ho { HostWord.idle 0b001#3 with opKey := key, opAddr := addr, opRc := rc }
  | .build key cmd rc addr =>
    .ho { HostWord.idle 0b010#3 with opKey := key, opCmd := cmd, opRc := rc, opAddr := addr }
  | .send frame reps => .ho { HostWord.idle 0b011#3 with opFrame := frame, opReps := reps }
  | .sendRepeat cmd reps => .ho { HostWord.idle 0b100#3 with opCmd := cmd, opReps := reps }
  | .load => .st 0#1 0 0
  | .persist addr rc => .st 1#1 addr rc

/-! ### The table's numbering -/

/-- The word of spec/opcode_table.json with `nbits` bits and value `w`, the operands beside it 0 (log 2). The table's
formats are told apart by their widths, 56, 3, 2 and 1. Where the width is given in whole bytes (8), the three narrow
formats share their numbers: 0 is then read as `st_op` LOAD and 1 to 7 as an `op_sel`. -/
def tableWord (nbits w : Nat) : Option PortWord :=
  match nbits with
  | 56 => some (.pf (BitVec.ofNat 56 w))
  | 3 => some (.ho (HostWord.idle (BitVec.ofNat 3 w)))
  | 2 => some (.ms (BitVec.ofNat 2 w))
  | 1 => some (.st (BitVec.ofNat 1 w) 0 0)
  | 8 =>
    if w = 0 then some (.st 0#1 0 0)
    else if w < 8 then some (.ho (HostWord.idle (BitVec.ofNat 3 w)))
    else none
  | _ => none

/-- The instruction the decoder reads from a word numbered as spec/opcode_table.json numbers it, under the table's own
command codes (R76). -/
def decodeTableWord (nbits w : Nat) : Option Instr :=
  match tableWord nbits w with
  | none => none
  | some p =>
    match decode CodeTable.decided p with
    | .ok i => some i
    | .error _ => none

/-! ### Command text (R81 to R84) -/

/-- The spelling of a command (R81). -/
def Command.text : Command → List Char
  | .my => ['m', 'y']
  | .up => ['u', 'p']
  | .myUp => ['m', 'y', 'u', 'p']
  | .down => ['d', 'o', 'w', 'n']
  | .myDown => ['m', 'y', 'd', 'o', 'w', 'n']
  | .upDown => ['u', 'p', 'd', 'o', 'w', 'n']
  | .myUpDown => ['m', 'y', 'u', 'p', 'd', 'o', 'w', 'n']
  | .prog => ['p', 'r', 'o', 'g']
  | .sunFlag => ['s', 'u', 'n', 'f', 'l', 'a', 'g']
  | .flag => ['f', 'l', 'a', 'g']

/-- Folding of the 26 ASCII capitals, every other character unchanged (R84). -/
def foldChar (c : Char) : Char :=
  if 'A' ≤ c ∧ c ≤ 'Z' then Char.ofNat (c.toNat + 32) else c

/-- The command a text spells, `none` for `UnknownCommandError` (R82, R83, R84). The parser acts outside the block. -/
def parseCommand (text : List Char) : Option Command :=
  Command.all.find? (fun c => c.text == text.map foldChar)

end Sys2Proof
end

