-- ==== Sys2Proof/Machine/State.lean ====
section
/-!
DEFINITION. The state of the block, of its ports and of the store, as plain data (10_state.md, 44_store_ops.md R207),
the reasons a step can stop, and the state after reset (R47).
-/

namespace Sys2Proof.Machine

/-- The phase register `TX_PHASE` (R31); the codes 6 and 7 are never reached. -/
inductive Phase where
  | idle
  | wakeup
  | hwsync
  | swsync
  | payload
  | gap
  deriving DecidableEq, Repr

/-- The position `TX_POS = (TX_K, TX_PHASE, TX_I, TX_HALF, TX_STAGE)` (R32, R33). -/
structure TxPos where
  /-- `TX_K`, the index of the frame being sent. -/
  k : Nat
  phase : Phase
  /-- `TX_I`, the pulse-pair index or the data-bit index. -/
  i : Nat
  /-- `TX_HALF`: false for the first pulse of the element, true for the second. -/
  half : Bool
  /-- `TX_STAGE`: false if the pulse's LineSet is next, true if its LineDelay is. -/
  stage : Bool
  deriving DecidableEq, Repr

/-- The outcomes an operation can report (R221); the codes 6 and 7 are never produced. -/
inductive ResultCode where
  | ok
  | buildError
  | transmitError
  | storageError
  | unknownCommandError
  | illegalOperation
  deriving DecidableEq, Repr

/-- The remote registers and their valid flag (R20 to R23). -/
structure Remote where
  key : Byte
  address : Addr
  rollingCode : Code
  valid : Bool
  deriving DecidableEq, Repr

/-- The operand registers and the frame buffer (R24, R25). -/
structure Latch where
  cmd : Nibble
  reps : Nat
  frame : Frame
  deriving DecidableEq, Repr

/-- The status flags `BUSY`, `DONE`, `RESULT` (R35). -/
structure Status where
  busy : Bool
  done : Bool
  result : ResultCode
  deriving DecidableEq, Repr

/-- One line operation (R140). -/
inductive LineOp where
  | set (level : Level)
  | delay (us : Nat)
  deriving DecidableEq, Repr

/-- One entry of `TRACE`: the operation and the capability's answer (R38). -/
inductive TraceEntry where
  | set (level : Level) (ok : Bool)
  | delay (us : Nat) (ok : Bool)
  deriving DecidableEq, Repr

/-- An answer of the line environment (R45, R141). A failure carries the two draws of R168: whether a failed LineSet
reached the requested level (U3), and the time a failed LineDelay spent, which counts up to the requested time (U4). -/
inductive LineAnswer where
  | ok
  | fail (reached : Bool) (spent : Nat)
  deriving DecidableEq, Repr

/-- An answer of the store (R207): done; failed keeping the old code; failed having written the new code. -/
inductive StoreAnswer where
  | ok
  | failKept
  | failWrote
  deriving DecidableEq, Repr

/-- An entry of the store table (R51). -/
structure StoreEntry where
  name : String
  address : Addr
  rollingCode : Code
  deriving DecidableEq, Repr

/-- A transaction on the store port (R90). -/
inductive StoreTxn where
  | load
  | persist (addr : Addr) (rc : Code)
  deriving DecidableEq, Repr

/-- `st_status` (R46); the code 3 is reserved. -/
inductive StoreStatus where
  | success
  | noEntry
  | ioFailure
  deriving DecidableEq, Repr

/-- What the store answered: `st_status`, and for a LOAD that succeeded the whole table (R46, R200). -/
structure StoreRsp where
  status : StoreStatus
  table : Option (List StoreEntry)
  deriving DecidableEq, Repr

/-- What the response port presents at a completion: `rsp_result`, and `rsp_frame` for a build (R44). -/
structure Response where
  result : ResultCode
  frame : Option Frame
  deriving DecidableEq, Repr

/-- What a host read returns (R43): a number, or for register 7 the position and the level. -/
inductive RegValue where
  | num (n : Nat)
  | position (pos : TxPos) (txOut : Level)
  deriving DecidableEq, Repr

/-- What the block presents to the outside, each for the one step that makes it (R43, R44, R46). -/
structure Ports where
  rsp : Option Response
  rdData : Option RegValue
  /-- The answer to the core's PERSIST. -/
  storeRsp : Option StoreRsp
  /-- The answer to a transaction of the host side towards the same store. -/
  hostStoreRsp : Option StoreRsp
  deriving DecidableEq, Repr

/-- What the outside does at one step. -/
inductive Input where
  /-- Nothing: the core moves. -/
  | tick
  /-- The reset input (R260). -/
  | reset
  /-- The host reads a register (R43). -/
  | read (n : Nat)
  /-- A host presents a request, which comes to wait at the given place among those that wait already (R42, R237). -/
  | request (w : PortWord) (place : Nat)
  /-- The line environment answers (R45). -/
  | lineAnswer (a : LineAnswer)
  /-- The store answers the core's PERSIST (R46). -/
  | storeAnswer (a : StoreAnswer)
  /-- The store answers the host side (R200; log 15). -/
  | hostAnswer (a : StoreAnswer)
  /-- A party outside the block writes the store (R65, R203). -/
  | storeEdit (table : List StoreEntry)
  deriving DecidableEq, Repr

/-- The outside world, as data that claims quantify over. -/
structure Env where
  /-- What happens outside at the next steps, the next first; an empty list is `tick` for ever. -/
  inputs : List Input
  /-- The requests that wait, on the command port and towards the store, in the order in which callers present them (R42,
  R237). -/
  pending : List PortWord
  /-- The line environment's answers not used yet; empty: the core waits (R141). -/
  lineAnswers : List LineAnswer
  /-- The store's answers to the core not used yet; empty: the core waits (R206). -/
  storeAnswers : List StoreAnswer
  /-- The transactions of the host side that are issued and not answered, the oldest first (R200; log 15). -/
  hostTxns : List StoreTxn
  /-- The store's answers to the host side not used yet (log 15). -/
  hostAnswers : List StoreAnswer
  deriving DecidableEq, Repr

/-- The operation in progress (R35, R163, R206). -/
inductive Activity where
  /-- No operation in progress. -/
  | idle
  /-- SEND at its transmit step (R160). -/
  | sending
  /-- SEND_REPEAT at its step 2, transmit (R184). -/
  | sendRepeating
  /-- SEND_REPEAT at its step 4, PERSIST issued and not answered (R186, R206). -/
  | persisting
  /-- One Manchester symbol, with its line operations still to perform (R74, R154). -/
  | symbol (left : List LineOp)
  deriving DecidableEq, Repr

/-- The whole state: the registers of 10_state.md section 1, the ports, the store, and the outside world as data. -/
structure State where
  /-- The constant table and the open parameters, read only (R37). -/
  cfg : Config
  remote : Remote
  latch : Latch
  tx : TxPos
  /-- `TX_OUT` (R30). -/
  txOut : Level
  status : Status
  activity : Activity
  /-- `TRACE`, oldest first (R38). -/
  trace : List TraceEntry
  /-- The model's own: microseconds elapsed since reset (R9, R141). -/
  now : Nat
  /-- The store table (R51, R207). -/
  store : List StoreEntry
  ports : Ports
  env : Env
  /-- The model's own: index of the next free values (R41). -/
  draws : Nat
  deriving DecidableEq, Repr

/-- No fault exists in this model: the spec's errors are ordinary outcomes of an operation, reported in `RESULT`
(R239), and an unanswered port leaves the machine waiting. No constructor, so nothing raises one; safe. -/
inductive Fault where
  deriving DecidableEq, Repr

/-- Why a step has no meaning. -/
inductive Refusal where
  /-- Raised by `exec` for an instruction without a meaning; no arm does so now. Safe. -/
  | notModelled (mnemonic : String)
  /-- Raised by `step` when the constant table breaks a constraint (R10, R239, U24). Safe. -/
  | badConfig
  /-- Raised by `step` when two store entries share a name or an address (R51, R239, U8). Safe. -/
  | badStore
  /-- Raised by `step` for a host read of a number above 15 (R43, R239, U22). Safe. -/
  | noSuchRegister
  /-- Raised by `step` for two pulses of one level, which are no Manchester symbol (R74). Safe. -/
  | noSymbol
  /-- Raised by `step` for a repetitions operand wider than `REP_W` bits, which no port can carry (D7). Safe. -/
  | operandTooWide
  deriving DecidableEq, Repr

/-- The remote registers when nothing has written them: free values, not valid (R23, R41, R47; log 3). -/
def freeRemote (n : Nat) : Remote where
  key := Config.freeKey n
  address := Config.freeAddress n
  rollingCode := Config.freeRollingCode n
  valid := false

/-- The operand registers when nothing has written them: free values of their widths (R41, R47; log 3). -/
def freeLatch (c : Config) (n : Nat) : Latch where
  cmd := Config.freeCmd n
  reps := c.limitReps (Config.freeReps n)
  frame := Frame.ofBits (Config.freeFrame n)

/-- The position after reset (R47). -/
def TxPos.idle : TxPos where
  k := 0
  phase := .idle
  i := 0
  half := false
  stage := false

/-- The outside world with nothing placed: no input, no request, no transaction and no answer yet (log 1, log 7, log 9,
log 12, log 15). -/
def Env.empty : Env where
  inputs := []
  pending := []
  lineAnswers := []
  storeAnswers := []
  hostTxns := []
  hostAnswers := []

/-- The ports with nothing presented (log 19). -/
def Ports.quiet : Ports where
  rsp := none
  rdData := none
  storeRsp := none
  hostStoreRsp := none

/-- Every piece of state of the block at its reset value (R47), for a constant table, a store and an outside world that
reset does not touch (log 18), and an index for the free values. -/
def State.afterReset (cfg : Config) (store : List StoreEntry) (env : Env) (n : Nat) : State where
  cfg := cfg
  remote := freeRemote n
  latch := freeLatch cfg n
  tx := TxPos.idle
  txOut := false
  status := { busy := false, done := false, result := .ok }
  activity := .idle
  trace := []
  now := 0
  store := store
  ports := Ports.quiet
  env := env
  draws := n

/-- The machine right after reset (R47), with the reference constants (PRESUMED, log 4), an empty store (DESIGN CHOICE,
log 6) and nothing placed outside (log 1). -/
def State.reset : State := State.afterReset Config.reference [] Env.empty 0

end Sys2Proof.Machine
end

