-- ==== Sys2Proof/Machine/Ops.lean ====
section
/-!
DEFINITION. The named operations over the state: acceptance, completion and errors (10_state.md R42, R44,
60_exceptions.md R225), the two line primitives (42_transmitter.md R141), the store (44_store_ops.md), and reset
(70_reset_and_hazards.md R260).
-/

namespace Sys2Proof.Machine

/-! ### Acceptance, completion, errors -/

/-- Acceptance of a host operation: `BUSY <- 1`, `DONE <- 0` (R42). -/
def accept (s : State) : State :=
  { s with status := { s.status with busy := true, done := false } }

/-- Completion of a host operation: `RESULT`, `DONE <- 1`, `BUSY <- 0`, and the response port (R35, R44). -/
def complete (code : ResultCode) (frame : Option Frame) (s : State) : State :=
  { s with
    status := { busy := false, done := true, result := code }
    activity := .idle
    ports := { s.ports with rsp := some { result := code, frame := frame } } }

/-- `raise` for every error kind: the operation ends at once, every register it wrote keeps its value, `RESULT <- code`,
`DONE <- 1`, `BUSY <- 0`, `TX_PHASE <- IDLE`, and the response port presents the code (R225). There is no handler and
no return (R232): the block is ready for the next operation. -/
def raise (code : ResultCode) (s : State) : State :=
  complete code none { s with tx := { s.tx with phase := .idle } }

/-! ### The line primitives -/

/-- Is the answer a success? -/
def LineAnswer.isOk : LineAnswer → Bool
  | .ok => true
  | .fail _ _ => false

/-- The trace entry of a line operation and its answer (R38, R141). -/
def LineOp.entry (op : LineOp) (ok : Bool) : TraceEntry :=
  match op with
  | .set level => .set level ok
  | .delay us => .delay us ok

/-- One use of a primitive, answered (R141). After a failed LineSet the level is the old or the requested one; a failed
LineDelay leaves the level and has spent some part of the requested time (R168, U3, U4; log 8). -/
def performOp (op : LineOp) (a : LineAnswer) (s : State) : State :=
  match op, a with
  | .set level, .ok => { s with txOut := level, trace := s.trace ++ [.set level true] }
  | .set level, .fail reached _ =>
    { s with txOut := if reached then level else s.txOut, trace := s.trace ++ [.set level false] }
  | .delay us, .ok => { s with now := s.now + us, trace := s.trace ++ [.delay us true] }
  | .delay us, .fail _ spent => { s with now := s.now + min spent us, trace := s.trace ++ [.delay us false] }

/-- How far a list of line operations got. -/
inductive LineOutcome where
  /-- Every operation succeeded. -/
  | done (s : State)
  /-- An operation failed; no later one was issued (R165). -/
  | failed (s : State)
  /-- The next operation of `left` is not answered yet (R141). -/
  | waiting (left : List LineOp) (s : State)
  deriving DecidableEq, Repr

/-- The state with other line answers left. -/
def State.withLineAnswers (s : State) (as : List LineAnswer) : State :=
  { s with env := { s.env with lineAnswers := as } }

/-- The state with other store answers left. -/
def State.withStoreAnswers (s : State) (as : List StoreAnswer) : State :=
  { s with env := { s.env with storeAnswers := as } }

/-- The state at another position of the transmitter (R33). -/
def State.setTx (s : State) (p : TxPos) : State := { s with tx := p }

/-- The list form: the operations in list order, each issued after the one before it was answered, stopping at the first
failure (R63, R141, R160, R165). -/
def performOps : List LineOp → State → LineOutcome
  | [], s => .done s
  | op :: left, s =>
    match s.env.lineAnswers with
    | [] => .waiting (op :: left) s
    | a :: as =>
      if a.isOk then performOps left (performOp op a (s.withLineAnswers as))
      else .failed (performOp op a (s.withLineAnswers as))

/-! ### The store -/

namespace Store

/-- A well-formed store: names pairwise distinct, addresses pairwise distinct (R51). -/
def wf (table : List StoreEntry) : Bool :=
  decide (table.map StoreEntry.name).Nodup && decide (table.map StoreEntry.address).Nodup

/-- The entry whose address equals the given one, all 24 bits compared (R208). -/
def lookup (addr : Addr) (table : List StoreEntry) : Option StoreEntry :=
  table.find? (fun e => e.address == addr)

/-- The table with the rolling code of one address overwritten; names, addresses and other entries stay (R202). -/
def overwrite (addr : Addr) (rc : Code) (table : List StoreEntry) : List StoreEntry :=
  table.map (fun e => if e.address = addr then { e with rollingCode := rc } else e)

end Store

/-- `StorePersist(address, rc)` with the store's answer: `st_status` and the table after it (R202). With no entry, status 1
and the table unchanged whatever the answer carries (R203; log 9); else written, or status 2 with the old or the new
code in the entry (R204, U5). -/
def Store.persist (addr : Addr) (rc : Code) (a : StoreAnswer) (table : List StoreEntry) :
    StoreStatus × List StoreEntry :=
  match Store.lookup addr table with
  | none => (.noEntry, table)
  | some _ =>
    match a with
    | .ok => (.success, Store.overwrite addr rc table)
    | .failKept => (.ioFailure, table)
    | .failWrote => (.ioFailure, Store.overwrite addr rc table)

/-- `StoreLoad()` with the store's answer: the whole table, or `LoadFailure` (status 2, no table) (R200; log 9). -/
def Store.load (a : StoreAnswer) (table : List StoreEntry) : StoreRsp :=
  match a with
  | .ok => { status := .success, table := some table }
  | .failKept => { status := .ioFailure, table := none }
  | .failWrote => { status := .ioFailure, table := none }

/-- The store answers the core's PERSIST with a status and leaves a table (R46). -/
def answerCore (r : StoreStatus × List StoreEntry) (s : State) : State :=
  { s with
    store := r.2
    ports := { s.ports with storeRsp := some { status := r.1, table := none } } }

/-- The store answers the host side and leaves a table (R200, R202; log 15). -/
def answerHost (rsp : StoreRsp) (table : List StoreEntry) (s : State) : State :=
  { s with
    store := table
    ports := { s.ports with hostStoreRsp := some rsp } }

/-- The state with other transactions and other answers of the host side. -/
def State.withHost (s : State) (txns : List StoreTxn) (as : List StoreAnswer) : State :=
  { s with env := { s.env with hostTxns := txns, hostAnswers := as } }

/-! ### Reset and the ports' one-step presentation -/

/-- The reset input: every piece of state of the block takes its reset value, whatever the block was doing; the store and
the outside world stay, the host side's own transactions among it (R260, R261, R262; log 18). The registers that lose
their values take fresh free values. DESIGN CHOICE (log 31): a PERSIST the block had issued and the store had not
answered is withdrawn with the operation, so the entry keeps its old code here. -/
def resetBlock (s : State) : State :=
  State.afterReset s.cfg s.store s.env (s.draws + 1)

/-- What the ports presented at the step before is gone: a completion is presented once (R44; log 19). -/
def clearPorts (s : State) : State :=
  { s with ports := Ports.quiet }

end Sys2Proof.Machine
end

