-- ==== Sys2Proof/Machine/Operands.lean ====
section
/-!
DEFINITION. The operands of the block: the command nibble of the command port (30_encoding.md R79), and the registers
the host reads by number (10_state.md R43), the only register selection in the hardware (R26).
-/

namespace Sys2Proof.Machine

/-- The command of `op_cmd` under the state's code table, `none` for a nibble of no command (R76, R79). -/
def operandCommand (s : State) (cmd : Nibble) : Option Command := s.cfg.codes.commandOf cmd

/-- The code of `TX_PHASE` (R31). -/
def Phase.toBits : Phase → BitVec 3
  | .idle => 0
  | .wakeup => 1
  | .hwsync => 2
  | .swsync => 3
  | .payload => 4
  | .gap => 5

/-- The code of `RESULT` and `rsp_result` (R221). -/
def ResultCode.toBits : ResultCode → BitVec 3
  | .ok => 0
  | .buildError => 1
  | .transmitError => 2
  | .storageError => 3
  | .unknownCommandError => 4
  | .illegalOperation => 5

/-- The code of `st_status` (R46). -/
def StoreStatus.toBits : StoreStatus → BitVec 2
  | .success => 0
  | .noEntry => 1
  | .ioFailure => 2

/-- `STATUS`: bit 0 `BUSY`, bit 1 `DONE`, bit 2 `REMOTE_VALID`, bits 5:3 `RESULT`, bits 7:6 zero (R43). -/
def statusWord (s : State) : Byte :=
  (BitVec.ofBool s.status.busy).setWidth 8 ||| (BitVec.ofBool s.status.done).setWidth 8 <<< 1
    ||| (BitVec.ofBool s.remote.valid).setWidth 8 <<< 2 ||| s.status.result.toBits.setWidth 8 <<< 3

/-- The register a host read returns, `none` above 15 (R43). A read has no side effect (R61). -/
def readRegister (s : State) : Nat → Option RegValue
  | 0 => some (.num (statusWord s).toNat)
  | 1 => some (.num s.remote.key.toNat)
  | 2 => some (.num s.remote.address.toNat)
  | 3 => some (.num s.remote.rollingCode.toNat)
  | 4 => some (.num s.latch.cmd.toNat)
  | 5 => some (.num s.latch.reps)
  | 6 => some (.num s.latch.frame.toBits.toNat)
  | 7 => some (.position s.tx s.txOut)
  | 8 => some (.num s.cfg.tHalf)
  | 9 => some (.num s.cfg.tWakeHigh)
  | 10 => some (.num s.cfg.tWakeLow)
  | 11 => some (.num s.cfg.tHwsync)
  | 12 => some (.num s.cfg.nSyncOnce)
  | 13 => some (.num s.cfg.nSyncRepeat)
  | 14 => some (.num s.cfg.tSwsyncHigh)
  | 15 => some (.num s.cfg.tGap)
  | _ => none

end Sys2Proof.Machine
end

