-- ==== Sys2Proof/Machine/Flags.lean ====
section
/-!
DEFINITION. What the status flags say (10_state.md R35, R42): which activity owns the line and the remote, and whether
a request can be accepted. No arithmetic operation sets a flag (R35, R193).
-/

namespace Sys2Proof.Machine

/-- Does the activity own the line or the remote, so that `BUSY` is 1 (R35, R270)? -/
def Activity.ownsLine : Activity → Bool
  | .idle => false
  | .sending => true
  | .sendRepeating => true
  | .persisting => true
  | .symbol _ => true

/-- Is the transmitter walking a send (R31: `IDLE` is "no send in progress")? -/
def Activity.transmitting : Activity → Bool
  | .idle => false
  | .sending => true
  | .sendRepeating => true
  | .persisting => false
  | .symbol _ => false

/-- Is the word a transaction towards the store, which `BUSY` does not keep waiting (R42, R90; log 15)? -/
def isStoreWord : PortWord → Bool
  | .pf _ => false
  | .ms _ => false
  | .ho _ => false
  | .st _ _ _ => true

/-- `op_ready = not BUSY` (R42). -/
def opReady (s : State) : Bool := !s.status.busy

/-- `op_valid`: the request that callers present next is one for the command port (R42). -/
def opValid (s : State) : Bool := s.env.pending.head?.any (fun w => !isStoreWord w)

/-- The request taken next and the ones left: with the block free the first, with an operation in progress the first
transaction towards the store, while requests for the command port wait (R42, R237; log 11, log 15). -/
def takeRequest (busy : Bool) : List PortWord → Option (PortWord × List PortWord)
  | [] => none
  | w :: rest =>
    if busy && !isStoreWord w then (takeRequest busy rest).map (fun p => (p.1, w :: p.2)) else some (w, rest)

end Sys2Proof.Machine
end

