-- ==== Sys2Proof/Machine/Codec.lean ====
section
/-!
DEFINITION. The FrameCodec: assemble, checksum, whiten, de-whiten, build, and the host operation BUILD
(41_framecodec.md).
-/

namespace Sys2Proof.Machine

/-- The seven bytes with the checksum place zero (R121); `code` is the command's 4-bit code. -/
def assemble (key : Byte) (code : Nibble) (rc : Code) (addr : Addr) : Frame :=
  plainFrame key code 0 rc addr

/-- The running XOR of both nibbles of each byte (R122). -/
def nibbleXor (p : Frame) : Nibble :=
  p.bytes.foldl (fun acc b => acc ^^^ hi4 b ^^^ lo4 b) 0

/-- The checksum of an assembled frame (R122). -/
def checksum (p : Frame) : Nibble := nibbleXor p

/-- The whitening chain, in strict left-to-right order, each byte with its whitened predecessor (R125). -/
def whiten (p : Frame) : Frame :=
  let w1 := p.b1 ^^^ p.b0
  let w2 := p.b2 ^^^ w1
  let w3 := p.b3 ^^^ w2
  let w4 := p.b4 ^^^ w3
  let w5 := p.b5 ^^^ w4
  let w6 := p.b6 ^^^ w5
  { b0 := p.b0, b1 := w1, b2 := w2, b3 := w3, b4 := w4, b5 := w5, b6 := w6 }

/-- De-whitening: each byte with its predecessor still whitened (R127). Defined for checking; the block never does it. -/
def dewhiten (w : Frame) : Frame where
  b0 := w.b0
  b1 := w.b1 ^^^ w.b0
  b2 := w.b2 ^^^ w.b1
  b3 := w.b3 ^^^ w.b2
  b4 := w.b4 ^^^ w.b3
  b5 := w.b5 ^^^ w.b4
  b6 := w.b6 ^^^ w.b5

/-- The plain frame with its checksum in place (R120, R123: computed before whitening). -/
def plainWithChecksum (key : Byte) (code : Nibble) (rc : Code) (addr : Addr) : Frame :=
  let p := assemble key code rc addr
  { p with b1 := p.b1 ||| (checksum p).setWidth 8 }

/-- `build(key, command, rolling_code, address)` (R120, R130). -/
def build (t : CodeTable) (key : Byte) (c : Command) (rc : Code) (addr : Addr) : Frame :=
  whiten (plainWithChecksum key (t.code c) rc addr)

/-- Checking a checksum on a plain frame: recompute with the low nibble of byte 1 taken as zero and compare (R124). Used
by claims only; the block never does it (R3). -/
def checksumHolds (p : Frame) : Bool :=
  checksum { p with b1 := joinNibbles (hi4 p.b1) 0 } == lo4 p.b1

/-- The effect of BUILD once accepted: the nibble test first, then `CMD`, `FRAME` and completion (R79, R120). -/
def buildOperation (key : Byte) (cmd : Nibble) (rc : Code) (addr : Addr) (s : State) : State :=
  match operandCommand s cmd with
  | none => raise .unknownCommandError s
  | some c =>
    let f := build s.cfg.codes key c rc addr
    complete .ok (some f) { s with latch := { s.latch with cmd := cmd, frame := f } }

/-- BUILD (R120). -/
def execBuild (key : Byte) (cmd : Nibble) (rc : Code) (addr : Addr) (s : State) : Host.Outcome State Fault Refusal :=
  .next (buildOperation key cmd rc addr (accept s))

end Sys2Proof.Machine
end

