-- ==== Sys2Proof/Machine/Commands.lean ====
section
/-!
DEFINITION. The ten commands as plain frames (40_commands.md R100 to R110): the command's code goes into the high nibble
of byte 1 and the frame is built as by BUILD with that code. The checksum nibble of the word is not read: the codec
computes it (R122; log 13).
-/

namespace Sys2Proof.Machine

/-- "BUILD with `op_cmd = code(c)`" (R110), for a command of the table. -/
def commandOperation (c : Command) (key : Byte) (rc : Code) (addr : Addr) (s : State) : State :=
  buildOperation key (s.cfg.codes.code c) rc addr (accept s)

/-- My (R100). -/
def execMy (key : Byte) (rc : Code) (addr : Addr) (s : State) : Host.Outcome State Fault Refusal :=
  .next (commandOperation .my key rc addr s)

/-- Up (R101). -/
def execUp (key : Byte) (rc : Code) (addr : Addr) (s : State) : Host.Outcome State Fault Refusal :=
  .next (commandOperation .up key rc addr s)

/-- MyUp (R102). -/
def execMyUp (key : Byte) (rc : Code) (addr : Addr) (s : State) : Host.Outcome State Fault Refusal :=
  .next (commandOperation .myUp key rc addr s)

/-- Down (R103). -/
def execDown (key : Byte) (rc : Code) (addr : Addr) (s : State) : Host.Outcome State Fault Refusal :=
  .next (commandOperation .down key rc addr s)

/-- MyDown (R104). -/
def execMyDown (key : Byte) (rc : Code) (addr : Addr) (s : State) : Host.Outcome State Fault Refusal :=
  .next (commandOperation .myDown key rc addr s)

/-- UpDown (R105). -/
def execUpDown (key : Byte) (rc : Code) (addr : Addr) (s : State) : Host.Outcome State Fault Refusal :=
  .next (commandOperation .upDown key rc addr s)

/-- MyUpDown (R106). -/
def execMyUpDown (key : Byte) (rc : Code) (addr : Addr) (s : State) : Host.Outcome State Fault Refusal :=
  .next (commandOperation .myUpDown key rc addr s)

/-- Prog (R107): built like any other command; it does not create the remote. -/
def execProg (key : Byte) (rc : Code) (addr : Addr) (s : State) : Host.Outcome State Fault Refusal :=
  .next (commandOperation .prog key rc addr s)

/-- SunFlag (R108). -/
def execSunFlag (key : Byte) (rc : Code) (addr : Addr) (s : State) : Host.Outcome State Fault Refusal :=
  .next (commandOperation .sunFlag key rc addr s)

/-- Flag (R109). -/
def execFlag (key : Byte) (rc : Code) (addr : Addr) (s : State) : Host.Outcome State Fault Refusal :=
  .next (commandOperation .flag key rc addr s)

end Sys2Proof.Machine
end

