-- ==== Sys2Proof/Machine/Transmitter.lean ====
section
/-!
DEFINITION. The Transmitter (42_transmitter.md): the five phases and the list form of a send, the position register and
its two functions, the transmit loop, the host operation SEND, and the waveform of a trace (10_state.md R39).
-/

namespace Sys2Proof.Machine

/-! ### The phases and the list form -/

/-- `pulse(level, d)`: always both operations (R142). -/
def pulse (level : Level) (us : Nat) : List LineOp := [.set level, .delay us]

/-- WakeUp (R150). -/
def wakeupOps (c : Config) : List LineOp := pulse true c.tWakeHigh ++ pulse false c.tWakeLow

/-- HardwareSync: `n` pairs, high first (R151). -/
def hwsyncOps (c : Config) (n : Nat) : List LineOp :=
  (List.replicate n (pulse true c.tHwsync ++ pulse false c.tHwsync)).flatten

/-- The pair count of frame `k` (R152). -/
def npairs (c : Config) (k : Nat) : Nat := if k = 0 then c.nSyncOnce else c.nSyncRepeat

/-- SoftwareSync (R153). -/
def swsyncOps (c : Config) : List LineOp := pulse true c.tSwsyncHigh ++ pulse false c.tHalf

/-- One data bit: the opposite level, then the level of the bit (R74, R154). -/
def bitOps (c : Config) (b : Bool) : List LineOp := pulse (!b) c.tHalf ++ pulse b c.tHalf

/-- Payload: the 56 data bits in line order (R154). -/
def payloadOps (c : Config) (f : Frame) : List LineOp :=
  ((List.range 56).map (fun n => bitOps c (f.dataBit n))).flatten

/-- InterFrameGap (R156). -/
def gapOps (c : Config) : List LineOp := pulse false c.tGap

/-- The line operations of frame `k` (R157). -/
def frameOps (c : Config) (f : Frame) (k : Nat) : List LineOp :=
  (if k = 0 then wakeupOps c else []) ++ hwsyncOps c (npairs c k) ++ swsyncOps c ++ payloadOps c f ++ gapOps c

/-- All line operations of a send: frames 0 to `reps` (R161). -/
def sendOps (c : Config) (f : Frame) (reps : Nat) : List LineOp :=
  ((List.range (reps + 1)).map (frameOps c f)).flatten

/-! ### The position register -/

/-- The level and the duration of the pulse at a position (R164); nothing while `IDLE`. -/
def levelDur (c : Config) (f : Frame) (p : TxPos) : Option (Level × Nat) :=
  match p.phase, p.half with
  | .idle, _ => none
  | .wakeup, false => some (true, c.tWakeHigh)
  | .wakeup, true => some (false, c.tWakeLow)
  | .hwsync, false => some (true, c.tHwsync)
  | .hwsync, true => some (false, c.tHwsync)
  | .swsync, false => some (true, c.tSwsyncHigh)
  | .swsync, true => some (false, c.tHalf)
  | .payload, false => some (!f.dataBit p.i, c.tHalf)
  | .payload, true => some (f.dataBit p.i, c.tHalf)
  | .gap, _ => some (false, c.tGap)

/-- `op_at(pos)` (R164). -/
def opAt (c : Config) (f : Frame) (p : TxPos) : Option LineOp :=
  match levelDur c f p with
  | none => none
  | some (level, us) => some (if p.stage then .delay us else .set level)

/-- The first position of a send (R163). -/
def TxPos.start : TxPos where
  k := 0
  phase := .wakeup
  i := 0
  half := false
  stage := false

/-- `next(pos)`, `none` for `IDLE` (R164). -/
def nextPos (c : Config) (reps : Nat) (p : TxPos) : Option TxPos :=
  if p.stage = false then
    match p.phase with
    | .idle => none
    | _ => some { p with stage := true }
  else
    match p.phase, p.half with
    | .idle, _ => none
    | .wakeup, false => some ⟨p.k, .wakeup, 0, true, false⟩
    | .wakeup, true => some ⟨p.k, .hwsync, 0, false, false⟩
    | .hwsync, false => some ⟨p.k, .hwsync, p.i, true, false⟩
    | .hwsync, true =>
      if p.i + 1 < npairs c p.k then some ⟨p.k, .hwsync, p.i + 1, false, false⟩
      else some ⟨p.k, .swsync, 0, false, false⟩
    | .swsync, false => some ⟨p.k, .swsync, 0, true, false⟩
    | .swsync, true => some ⟨p.k, .payload, 0, false, false⟩
    | .payload, false => some ⟨p.k, .payload, p.i, true, false⟩
    | .payload, true =>
      if p.i < 55 then some ⟨p.k, .payload, p.i + 1, false, false⟩
      else some ⟨p.k, .gap, 0, false, false⟩
    | .gap, _ => if p.k < reps then some ⟨p.k + 1, .hwsync, 0, false, false⟩ else none

/-- The position after `n` successful line operations of a send (R33, R163). -/
def posAfter (c : Config) (reps : Nat) : Nat → Option TxPos
  | 0 => some TxPos.start
  | n + 1 =>
    match posAfter c reps n with
    | none => none
    | some p => nextPos c reps p

/-! ### The transmit loop -/

/-- How far the transmitter got. -/
inductive TxOutcome where
  /-- `next` returned `IDLE`: the send completed (R163). -/
  | done (s : State)
  /-- A line operation failed: `TransmitError` (R165). -/
  | failed (s : State)
  /-- The line environment has not answered the operation at `TX_POS` (R141). -/
  | waiting (s : State)
  deriving DecidableEq, Repr

/-- The transmitter goes on from `TX_POS`, one line operation an answer, while there are answers (R163): on success
`TX_POS <- next(TX_POS)`, at `IDLE` the send is complete, on failure it ends there (R165). -/
def txRun : List LineAnswer → State → TxOutcome
  | [], s => .waiting (s.withLineAnswers [])
  | a :: as, s =>
    match opAt s.cfg s.latch.frame s.tx with
    | none => .done (s.withLineAnswers (a :: as))
    | some op =>
      if a.isOk then
        match nextPos s.cfg s.latch.reps s.tx with
        | none => .done ((performOp op a (s.withLineAnswers as)).setTx { s.tx with phase := .idle })
        | some p => txRun as ((performOp op a s).setTx p)
      else .failed (performOp op a (s.withLineAnswers as))

/-- The transmit step with the answers the environment has given (R160, R163). -/
def transmit (s : State) : TxOutcome := txRun s.env.lineAnswers s

/-- The request on the line port: the operation at `TX_POS`, or the next of a lone symbol (R45). -/
def linePort (s : State) : Option LineOp :=
  match s.activity with
  | .symbol (op :: _) => some op
  | .symbol [] => none
  | .sending => opAt s.cfg s.latch.frame s.tx
  | .sendRepeating => opAt s.cfg s.latch.frame s.tx
  | .idle => none
  | .persisting => none

/-! ### SEND -/

/-- SEND from its transmit step to its end, or to where it waits (R160, R165). -/
def sendContinue (s : State) : State :=
  match transmit s with
  | .done t => complete .ok none t
  | .failed t => raise .transmitError t
  | .waiting t => t

/-- SEND reaches its transmit step: `FRAME`, `REPS`, then `TX_POS <- (0, WAKEUP, 0, 0, 0)` (R160, R163). -/
def sendStart (frame : Frame) (reps : Nat) (s : State) : State :=
  { (accept s) with
    latch := { s.latch with reps := reps, frame := frame }
    tx := TxPos.start
    activity := .sending }

/-- SEND (R160). The frame is not checked (R80). -/
def execSend (frame : FrameBits) (reps : Nat) (s : State) : Host.Outcome State Fault Refusal :=
  .next (sendContinue (sendStart (Frame.ofBits frame) reps s))

/-! ### Observation: the waveform and the durations of a trace (R39, R162) -/

/-- The time a requested operation takes when it succeeds. -/
def LineOp.time : LineOp → Nat
  | .set _ => 0
  | .delay us => us

/-- The sum of the requested delays of a list of operations (R157, R162). -/
def duration (ops : List LineOp) : Nat := (ops.map LineOp.time).sum

/-- The successful delays of a trace, each with the level held during it: a successful LineSet changes the level at once
(R39). -/
def heldLevels : Level → List TraceEntry → List (Level × Nat)
  | _, [] => []
  | level, .set l ok :: rest => heldLevels (if ok then l else level) rest
  | level, .delay us ok :: rest =>
    if ok then (level, us) :: heldLevels level rest else heldLevels level rest

/-- One more run in front: no run of no time, and equal adjacent levels are one run of the summed duration (R39). -/
def consRun (run : Level × Nat) (runs : List (Level × Nat)) : List (Level × Nat) :=
  if run.2 = 0 then runs
  else
    match runs with
    | [] => [run]
    | (level, us) :: more => if level = run.1 then (level, run.2 + us) :: more else run :: runs

/-- The waveform of a trace, from the level before its first entry (R39). -/
def waveform (level : Level) (trace : List TraceEntry) : List (Level × Nat) :=
  (heldLevels level trace).foldr consRun []

end Sys2Proof.Machine
end

