-- ==== Sys2Proof/Machine/Sequencer.lean ====
section
/-!
DEFINITION. The RollingCodeSequencer: CREATE and SEND_REPEAT (43_sequencer.md).
-/

namespace Sys2Proof.Machine

/-- CREATE once accepted (R180). -/
def createOperation (key : Byte) (addr : Addr) (rc : Code) (s : State) : State :=
  complete .ok none { s with remote := { key := key, address := addr, rollingCode := rc, valid := true } }

/-- CREATE (R180). -/
def execCreate (key : Byte) (addr : Addr) (rc : Code) (s : State) : Host.Outcome State Fault Refusal :=
  .next (createOperation key addr rc (accept s))

/-- Step 3: `ROLLING_CODE <- (ROLLING_CODE + 1) mod 2^16` (R185, R193). -/
def advanceCode (s : State) : State :=
  { s with remote := { s.remote with rollingCode := s.remote.rollingCode + 1 } }

/-- Step 4: PERSIST with the advanced code (R186), once the store answers, and the end of the operation: `OK`, or
`StorageError` (R188, R203, R204); with no answer the core waits (R206, R239). -/
def persistContinue (s : State) : State :=
  match s.env.storeAnswers with
  | [] => { s with activity := .persisting }
  | a :: as =>
    let r := Store.persist s.remote.address s.remote.rollingCode a s.store
    let t := answerCore r (s.withStoreAnswers as)
    match r.1 with
    | .success => complete .ok none t
    | .noEntry => raise .storageError t
    | .ioFailure => raise .storageError t

/-- Steps 2 to 4 (R184 to R187): transmit, then advance, then persist; a line failure ends the operation before the
advance. -/
def sendRepeatContinue (s : State) : State :=
  match transmit s with
  | .done t => persistContinue (advanceCode t)
  | .failed t => raise .transmitError t
  | .waiting t => t

/-- SEND_REPEAT reaches its transmit step: `CMD`, `REPS`, and the frame built from the remote's registers (R181, R183). -/
def sendRepeatStart (c : Command) (cmd : Nibble) (reps : Nat) (s : State) : State :=
  { s with
    latch :=
      { cmd := cmd
        reps := reps
        frame := build s.cfg.codes s.remote.key c s.remote.rollingCode s.remote.address }
    tx := TxPos.start
    activity := .sendRepeating }

/-- SEND_REPEAT once accepted: the nibble test, then the remote test, then the four steps (R79, R181, R182). -/
def sendRepeatOperation (cmd : Nibble) (reps : Nat) (s : State) : State :=
  match operandCommand s cmd with
  | none => raise .unknownCommandError s
  | some c =>
    if s.remote.valid then sendRepeatContinue (sendRepeatStart c cmd reps s)
    else raise .buildError s

/-- SEND_REPEAT (R181). -/
def execSendRepeat (cmd : Nibble) (reps : Nat) (s : State) : Host.Outcome State Fault Refusal :=
  .next (sendRepeatOperation cmd reps (accept s))

end Sys2Proof.Machine
end

