-- ==== Sys2Proof/Machine/StoreOps.lean ====
section
/-!
DEFINITION. LOAD and PERSIST as transactions of the host side towards the store (44_store_ops.md R200 to R208, D30; log
15). The core takes no part in them: they write no register of the block and no flag, and they neither wait for the
block nor keep it waiting.
-/

namespace Sys2Proof.Machine

/-- The store answers a transaction of the host side. -/
def hostAnswered (txn : StoreTxn) (a : StoreAnswer) (s : State) : State :=
  match txn with
  | .load => answerHost (Store.load a s.store) s.store s
  | .persist addr rc =>
    let r := Store.persist addr rc a s.store
    answerHost { status := r.1, table := none } r.2 s

/-- The host side issues a transaction: answered at once where nothing is outstanding before it and an answer is there,
else outstanding (R206; log 15). -/
def hostIssue (txn : StoreTxn) (s : State) : State :=
  match s.env.hostTxns, s.env.hostAnswers with
  | [], a :: as => hostAnswered txn a (s.withHost [] as)
  | txns, as => s.withHost (txns ++ [txn]) as

/-- An answer of the store to the host side comes: it answers the oldest transaction outstanding, or is kept for the next
(log 15). -/
def hostSettle (a : StoreAnswer) (s : State) : State :=
  match s.env.hostTxns with
  | [] => s.withHost [] (s.env.hostAnswers ++ [a])
  | txn :: rest => hostAnswered txn a (s.withHost rest s.env.hostAnswers)

/-- LOAD (R200). -/
def execLoad (s : State) : Host.Outcome State Fault Refusal :=
  .next (hostIssue .load s)

/-- PERSIST (R202). -/
def execPersist (addr : Addr) (rc : Code) (s : State) : Host.Outcome State Fault Refusal :=
  .next (hostIssue (.persist addr rc) s)

/-- The request on the core's store port: `st_op`, `st_addr`, `st_rc` of SEND_REPEAT's step 4 (R46, R186). -/
def storePort (s : State) : Option StoreTxn :=
  match s.activity with
  | .persisting => some (.persist s.remote.address s.remote.rollingCode)
  | .idle => none
  | .sending => none
  | .sendRepeating => none
  | .symbol _ => none

end Sys2Proof.Machine
end

