-- ==== Sys2Proof/Machine/Symbols.lean ====
section
/-!
DEFINITION. The two Manchester symbols as instructions of the line coder (30_encoding.md R74, 42_transmitter.md R154):
the four line operations of one data bit, outside a send (log 14).
-/

namespace Sys2Proof.Machine

/-- The symbol's operations from where they stand: finished, failed as any line operation fails (R141, R165), or waiting.
`BUSY` is 1 while the line is owned (R35); no host operation completes, so `DONE` and `RESULT` stay on success. -/
def symbolContinue (left : List LineOp) (s : State) : State :=
  match performOps left s with
  | .done t => { t with status := { t.status with busy := false }, activity := .idle }
  | .failed t => raise .transmitError t
  | .waiting rest t => { t with status := { t.status with busy := true }, activity := .symbol rest }

/-- BIT1: low for `T_HALF`, then high for `T_HALF` (R74). -/
def execBit1 (s : State) : Host.Outcome State Fault Refusal :=
  .next (symbolContinue (bitOps s.cfg true) s)

/-- BIT0: high for `T_HALF`, then low for `T_HALF` (R74). -/
def execBit0 (s : State) : Host.Outcome State Fault Refusal :=
  .next (symbolContinue (bitOps s.cfg false) s)

end Sys2Proof.Machine
end

