-- ==== Sys2Proof/Machine/Dispatch.lean ====
section
/-!
DEFINITION. One arm per instruction.
-/

namespace Sys2Proof.Machine

def exec (i : Instr) (s : State) : Host.Outcome State Fault Refusal :=
  match i with
  -- the ten commands; their checksum nibble is computed by the codec, not taken from the word (log 13)
  | .my key _ rc addr => Sys2Proof.Machine.execMy key rc addr s
  | .up key _ rc addr => Sys2Proof.Machine.execUp key rc addr s
  | .myUp key _ rc addr => Sys2Proof.Machine.execMyUp key rc addr s
  | .down key _ rc addr => Sys2Proof.Machine.execDown key rc addr s
  | .myDown key _ rc addr => Sys2Proof.Machine.execMyDown key rc addr s
  | .upDown key _ rc addr => Sys2Proof.Machine.execUpDown key rc addr s
  | .myUpDown key _ rc addr => Sys2Proof.Machine.execMyUpDown key rc addr s
  | .prog key _ rc addr => Sys2Proof.Machine.execProg key rc addr s
  | .sunFlag key _ rc addr => Sys2Proof.Machine.execSunFlag key rc addr s
  | .flag key _ rc addr => Sys2Proof.Machine.execFlag key rc addr s
  -- the two Manchester symbols
  | .bit1 => Sys2Proof.Machine.execBit1 s
  | .bit0 => Sys2Proof.Machine.execBit0 s
  -- the host operations
  | .create key addr rc => Sys2Proof.Machine.execCreate key addr rc s
  | .build key cmd rc addr => Sys2Proof.Machine.execBuild key cmd rc addr s
  | .send frame reps => Sys2Proof.Machine.execSend frame reps s
  | .sendRepeat cmd reps => Sys2Proof.Machine.execSendRepeat cmd reps s
  -- the store transactions
  | .load => Sys2Proof.Machine.execLoad s
  | .persist addr rc => Sys2Proof.Machine.execPersist addr rc s

end Sys2Proof.Machine
end

