-- ==== Sys2Proof/Machine/Fetch.lean ====
section
/-!
DEFINITION. How an instruction comes to run: the requests that wait, the decoder, and what the outside does at a step
(10_state.md R42, R43; log 1, log 10, log 12).
-/

namespace Sys2Proof.Machine

/-- The state with other requests waiting. -/
def State.withPending (s : State) (ws : List PortWord) : State :=
  { s with env := { s.env with pending := ws } }

/-- The state with other inputs to come. -/
def State.withInputs (s : State) (xs : List Input) : State :=
  { s with env := { s.env with inputs := xs } }

/-- A word that is no instruction. A reserved `op_sel` is accepted and completes with `IllegalOperation` (R89); a reserved
command nibble completes with `UnknownCommandError` (R79); two pulses of one level are refused (log 16). -/
def runReject (e : DecodeReject) (s : State) : Host.Outcome State Fault Refusal :=
  match e with
  | .reservedOpSel => .next (raise .illegalOperation (accept s))
  | .reservedCommand => .next (raise .unknownCommandError (accept s))
  | .noSymbol => .refused .noSymbol

/-- A word taken from the queue: decoded under the block's code table (R76) and run. -/
def runWord (w : PortWord) (s : State) : Host.Outcome State Fault Refusal :=
  match decode s.cfg.codes w with
  | .error e => runReject e s
  | .ok i => if i.wellFormed s.cfg then exec i s else .refused .operandTooWide

/-- The core goes on with the operation in progress; with none it has nothing to do (R163, R206; log 28). -/
def goOn (s : State) : State :=
  match s.activity with
  | .sending => sendContinue s
  | .sendRepeating => sendRepeatContinue s
  | .persisting => persistContinue s
  | .symbol left => symbolContinue left s
  | .idle => s

/-- A tick: the next request that can be taken is, or the core goes on. A request for the command port that waits for `BUSY`
is neither lost nor refused (R42); a transaction towards the store does not wait for it (log 15). -/
def coreStep (s : State) : Host.Outcome State Fault Refusal :=
  match takeRequest s.activity.ownsLine s.env.pending with
  | some (w, rest) => runWord w (s.withPending rest)
  | none => .next (goOn s)

/-- The host reads a register: the value is presented, nothing else changes (R43, R61). -/
def hostRead (n : Nat) (s : State) : Host.Outcome State Fault Refusal :=
  match readRegister s n with
  | none => .refused .noSuchRegister
  | some v => .next { s with ports := { s.ports with rdData := some v } }

/-- What the outside does at this step lands, or the core moves. -/
def landInput (x : Input) (s : State) : Host.Outcome State Fault Refusal :=
  match x with
  | .tick => coreStep s
  | .reset => .next (resetBlock s)
  | .read n => hostRead n s
  | .request w place => .next (s.withPending (s.env.pending.take place ++ w :: s.env.pending.drop place))
  | .lineAnswer a => .next (s.withLineAnswers (s.env.lineAnswers ++ [a]))
  | .storeAnswer a => .next (s.withStoreAnswers (s.env.storeAnswers ++ [a]))
  | .hostAnswer a => .next (hostSettle a s)
  | .storeEdit table => if Store.wf table then .next { s with store := table } else .refused .badStore

/-- The next input, if there is one; else the core moves. -/
def nextInput (s : State) : Host.Outcome State Fault Refusal :=
  match s.env.inputs with
  | [] => coreStep s
  | x :: rest => landInput x (s.withInputs rest)

/-- The state in which the next step accepts the given request: it waits first, the core moves next, and no operation is
in progress (log 1). -/
def State.withRequest (s : State) (w : PortWord) : State :=
  { s with
    activity := .idle
    status := { s.status with busy := false }
    tx := { s.tx with phase := .idle }
    env :=
      { s.env with
        pending := w :: s.env.pending
        inputs := if s.env.inputs.isEmpty then [] else .tick :: s.env.inputs } }

end Sys2Proof.Machine
end

