-- ==== Sys2Proof/Machine/Step.lean ====
section
/-!
DEFINITION. One step of the block and its outside world, and the placing of a table word where the next step takes it.
-/

namespace Sys2Proof.Machine

/-- One step: the Config and the store are checked (R10, R51, R239), what the ports presented is withdrawn (R44), and the
next input lands or the core moves. -/
def step (s : State) : Host.Outcome State Fault Refusal :=
  if s.cfg.valid then
    if Store.wf s.store then nextInput (clearPorts s) else .refused .badStore
  else .refused .badConfig

/-- The state with the word of spec/opcode_table.json placed as the request the next step accepts (log 1, log 2). -/
def State.withFetchWord (s : State) (nbits w : Nat) : State :=
  match tableWord nbits w with
  | none => s
  | some p => s.withRequest p

end Sys2Proof.Machine
end

