-- ==== Sys2Proof/Safety.lean ====
section
/-!
DEFINITION. What claims are stated in: the legal states, what lands or is accepted at a step, what a send leaves alone,
and a chain of successful sends.
-/

namespace Sys2Proof.Machine

/-! ### Legal states -/

/-- The ranges of the position registers while a send is in progress (R31, R32). -/
def TxPos.inRange (c : Config) (reps : Nat) (p : TxPos) : Prop :=
  p.k ≤ reps ∧
    match p.phase with
    | .idle => False
    | .wakeup => p.k = 0 ∧ p.i = 0
    | .hwsync => p.i < npairs c p.k
    | .swsync => p.i = 0
    | .payload => p.i ≤ 55
    | .gap => p.i = 0 ∧ p.half = false

/-- Is a host operation in progress? -/
def Activity.hostOperation : Activity → Bool
  | .idle => false
  | .sending => true
  | .sendRepeating => true
  | .persisting => true
  | .symbol _ => false

/-- The states the block can legally be in. -/
structure Inv (s : State) : Prop where
  /-- The constants meet their constraints (R10). -/
  cfgValid : s.cfg.valid = true
  /-- Names and addresses of the store are distinct (R51). -/
  storeWf : Store.wf s.store = true
  /-- `BUSY` says that the line or the remote is owned (R35). -/
  busyOwns : s.status.busy = s.activity.ownsLine
  /-- `TX_PHASE` is `IDLE` exactly when no send is in progress (R31). -/
  phaseIdle : s.tx.phase = .idle ↔ s.activity.transmitting = false
  /-- The position is one of the send (R32). -/
  posInRange : s.activity.transmitting = true → s.tx.inRange s.cfg s.latch.reps
  /-- SEND_REPEAT goes on only for a remote that exists (R182). -/
  remoteHeld : s.activity = .sendRepeating ∨ s.activity = .persisting → s.remote.valid = true
  /-- `REPS` has `REP_W` bits (R24). -/
  repsFit : s.cfg.fits s.latch.reps = true
  /-- `DONE` is 0 while a host operation is in progress (R35). -/
  doneClear : s.activity.hostOperation = true → s.status.done = false
  /-- What is left of a lone symbol is an end of its four operations (R74). -/
  symbolLeft : ∀ left, s.activity = .symbol left → left ≠ [] ∧ ∃ b, left <:+ bitOps s.cfg b
  /-- An answer to the host side is kept only while none of its transactions is outstanding (log 15). -/
  hostServed : s.env.hostTxns = [] ∨ s.env.hostAnswers = []

/-! ### What happens at a step -/

/-- The input that lands at the next step (R42, R43, R260). -/
def State.landing (s : State) : Input :=
  match s.env.inputs with
  | [] => .tick
  | x :: _ => x

/-- The request the next step takes, if any: accepted on the command port, or issued towards the store (R42; log 15). -/
def State.accepting (s : State) : Option PortWord :=
  if s.landing = .tick then (takeRequest s.activity.ownsLine s.env.pending).map Prod.fst else none

/-- The requests left when the next step has taken one. -/
def State.left (s : State) : List PortWord :=
  match takeRequest s.activity.ownsLine s.env.pending with
  | some (_, rest) => rest
  | none => s.env.pending

/-- The instruction the next step runs, if any. -/
def State.running (s : State) : Option Instr :=
  match s.accepting with
  | none => none
  | some w =>
    match decode s.cfg.codes w with
    | .ok i => some i
    | .error _ => none

/-- The state in which the instruction that is taken runs: what the ports presented is withdrawn, the tick is used up, and
the request has left the queue. -/
def State.atExec (s : State) : State :=
  ((clearPorts s).withInputs s.env.inputs.tail).withPending s.left

/-- The address and the code that the next step may write into the store, if any: of the PERSIST that SEND_REPEAT issues
when its send ends in this step (R186) or that the core waits for; of the PERSIST of the host side that runs, or that
the answer landing answers (R202). -/
def State.storeWrite (s : State) : Option (Addr × Code) :=
  match s.landing with
  | .tick =>
    match s.accepting, s.running with
    | some _, some (.sendRepeat _ _) => some (s.remote.address, (advanceCode s).remote.rollingCode)
    | some _, some (.persist addr rc) => some (addr, rc)
    | some _, _ => none
    | none, _ =>
      match s.activity with
      | .sendRepeating => some (s.remote.address, (advanceCode s).remote.rollingCode)
      | .persisting => some (s.remote.address, s.remote.rollingCode)
      | .idle => none
      | .sending => none
      | .symbol _ => none
  | .hostAnswer _ =>
    match s.env.hostTxns with
    | .persist addr rc :: _ => some (addr, rc)
    | .load :: _ => none
    | [] => none
  | .reset => none
  | .read _ => none
  | .request _ _ => none
  | .lineAnswer _ => none
  | .storeAnswer _ => none
  | .storeEdit _ => none

/-- Does the host side or another party write the store at the next step? -/
def State.storeWrittenOutside (s : State) : Bool :=
  match s.landing, s.running with
  | .tick, some (.persist _ _) => true
  | .hostAnswer _, _ => s.storeWrite.isSome
  | .storeEdit _, _ => true
  | _, _ => false

/-! ### The waveform of a trace -/

/-- The level after a trace: that of its last successful LineSet (R30, R39). -/
def lastLevel (level : Level) (trace : List TraceEntry) : Level :=
  (trace.reverse.findSome? (fun e => match e with
    | .set l true => some l
    | .set _ false => none
    | .delay _ _ => none)).getD level

/-- The time of the successful delays of a trace (R39). -/
def traceTime (trace : List TraceEntry) : Nat :=
  (trace.map (fun e => match e with
    | .set _ _ => 0
    | .delay us true => us
    | .delay _ false => 0)).sum

/-- The level at every microsecond of a list of runs. -/
def everyMicrosecond (runs : List (Level × Nat)) : List Level := runs.flatMap (fun r => List.replicate r.2 r.1)

/-! ### Sends -/

/-- `n` successes of the line environment. -/
def allOk (n : Nat) : List LineAnswer := List.replicate n .ok

/-- The trace entries of operations that all succeeded. -/
def okTrace (ops : List LineOp) : List TraceEntry := ops.map (fun op => op.entry true)

/-- The level after a list of successful operations (R30, R141). -/
def levelAfter (level : Level) (ops : List LineOp) : Level :=
  ops.foldl (fun l op => match op with
    | .set l' => l'
    | .delay _ => l) level

/-- The line operations of a SEND of a 56-bit frame in a state (R161). -/
def sendOpsOf (s : State) (frame : FrameBits) (reps : Nat) : List LineOp :=
  sendOps s.cfg (Frame.ofBits frame) reps

/-- The frame SEND_REPEAT builds from the remote's registers for a command (R183). -/
def remoteFrame (s : State) (c : Command) : Frame :=
  build s.cfg.codes s.remote.key c s.remote.rollingCode s.remote.address

/-- The line operations of a SEND_REPEAT of a command in a state (R184). -/
def repeatOpsOf (s : State) (c : Command) (reps : Nat) : List LineOp :=
  sendOps s.cfg (remoteFrame s c) reps

/-- What no send, successful or not, touches: everything but `FRAME`, `CMD`, `REPS`, the position, `TX_OUT`, `TRACE`, the
time, the status flags, and, for SEND_REPEAT, `ROLLING_CODE` and the store (R27, R170). -/
structure SendKeeps (s t : State) : Prop where
  cfg : t.cfg = s.cfg
  key : t.remote.key = s.remote.key
  address : t.remote.address = s.remote.address
  valid : t.remote.valid = s.remote.valid
  draws : t.draws = s.draws
  inputs : t.env.inputs = s.env.inputs
  pending : t.env.pending = s.env.pending
  hostTxns : t.env.hostTxns = s.env.hostTxns
  hostAnswers : t.env.hostAnswers = s.env.hostAnswers
  rdData : t.ports.rdData = s.ports.rdData
  hostStoreRsp : t.ports.hostStoreRsp = s.ports.hostStoreRsp

/-- What SEND leaves alone besides: the rolling code, the command register, the store and its port (R170, R194). -/
structure SendOnlyKeeps (s t : State) : Prop extends SendKeeps s t where
  rollingCode : t.remote.rollingCode = s.remote.rollingCode
  cmd : t.latch.cmd = s.latch.cmd
  store : t.store = s.store
  storeAnswers : t.env.storeAnswers = s.env.storeAnswers
  storeRsp : t.ports.storeRsp = s.ports.storeRsp

/-- The state with the position registers forgotten, for the list form of a send, which has none (R161, R163). -/
def forgetPos (s : State) : State := { s with tx := TxPos.idle }

/-- The end of a SEND in its list form (R160, R165). -/
def sendListEnd : LineOutcome → State
  | .done s => complete .ok none s
  | .failed s => raise .transmitError s
  | .waiting _ s => s

/-- The rolling code a whitened frame carries (R132). -/
def carriedCode (w : Frame) : Code := (dewhiten w).plainCode

/-- The steps of a SEND_REPEAT in progress, to its end; inputs may land and the host side may LOAD between, but there is no
reset and no write of the store from outside the block. -/
inductive SendSteps : State → State → Prop where
  | ended (s : State) (idle : s.activity = .idle) : SendSteps s s
  | more (s t u : State)
      (busy : s.activity = .sendRepeating ∨ s.activity = .persisting)
      (noReset : s.landing ≠ .reset)
      (noEdit : s.storeWrittenOutside = false)
      (run : step s = .next t)
      (rest : SendSteps t u) : SendSteps s u

/-- Consecutive SEND_REPEAT operations that each ended `OK`, from the step that accepts the first, with the codes their
frames carried, in order (R191). Between them the block is idle and runs no instruction but LOAD; inputs may land, but
there is no reset and no write of the store from outside the block. -/
inductive OkSends : List Code → State → State → Prop where
  | none (s : State) : OkSends [] s s
  | pause (s t u : State) (codes : List Code)
      (idle : s.activity = .idle)
      (noInstr : s.running = Option.none ∨ s.running = some .load)
      (noReset : s.landing ≠ .reset)
      (noEdit : s.storeWrittenOutside = false)
      (run : step s = .next t)
      (rest : OkSends codes t u) : OkSends codes s u
  | send (cmd : Nibble) (reps : Nat) (s t u v : State) (codes : List Code)
      (instr : s.running = some (.sendRepeat cmd reps))
      (run : step s = .next t)
      (ends : SendSteps t u)
      (ok : u.status.result = .ok)
      (rest : OkSends codes u v) : OkSends (carriedCode u.latch.frame :: codes) s v

end Sys2Proof.Machine
end

