-- ==== Sys2Proof/Certificates/Slice0/Obligations.lean ====
section
/-!
DEFINITION. The statements for the provers. OBLIGATIONS.json says of each which rules of spec/ it formalises.
-/

open Sys2Proof Sys2Proof.Machine

/-! ### Encodings -/

/-- Words written out bit by bit from the spec's encodings decode to the instructions they stand for (R70, R74, R76, R88,
R90). -/
def Obligations.WordsOfTheSpecDecode : Prop :=
  decode CodeTable.decided
      (.pf 0b10100111_0010_0111_0000000000101010_00010001_10101010_11111111#56) = .ok (.up 0xA7 7 42 0xFFAA11)
    ∧ decode CodeTable.decided
      (.pf 0b01011100_1000_0010_0001001000110100_01010110_00110100_00010010#56) = .ok (.prog 0x5C 2 0x1234 0x123456)
    ∧ decode CodeTable.decided (.ms 0b01#2) = .ok .bit1
    ∧ decode CodeTable.decided (.ms 0b10#2) = .ok .bit0
    ∧ decode CodeTable.decided
      (.ho { opSel := 0b001, opKey := 0xA7, opCmd := 0, opRc := 42, opAddr := 0xFFAA11, opFrame := 0, opReps := 0 })
        = .ok (.create 0xA7 0xFFAA11 42)
    ∧ decode CodeTable.decided
      (.ho { opSel := 0b100, opKey := 0, opCmd := 2, opRc := 0, opAddr := 0, opFrame := 0, opReps := 5 })
        = .ok (.sendRepeat 2 5)
    ∧ decode CodeTable.decided (.st 0 0xFFAA11 43) = .ok .load
    ∧ decode CodeTable.decided (.st 1 0xFFAA11 43) = .ok (.persist 0xFFAA11 43)

/-- Decode undoes encode, for every instruction and every legal code table (R70, R74, R76, R88, R90). -/
def Obligations.DecodeOfEncodeIsTheInstruction : Prop :=
  ∀ (t : CodeTable) (i : Instr), t.valid = true → decode t (encode t i) = .ok i

/-- Encode undoes decode: exactly on frames and symbols, and up to the operands an operation ignores on the two ports
(R42, R90). -/
def Obligations.EncodeOfDecodeIsTheWord : Prop :=
  ∀ (t : CodeTable) (w : PortWord) (i : Instr), decode t w = .ok i →
    match w with
    | .pf bits => encode t i = .pf bits
    | .ms pulses => encode t i = .ms pulses
    | .ho h => ∃ h', encode t i = .ho h' ∧ h'.opSel = h.opSel ∧ decodeHost h' = decodeHost h
    | .st op addr rc => ∃ addr' rc', encode t i = .st op addr' rc' ∧ decodeStore op addr' rc' = decodeStore op addr rc

/-- A plain frame is the command `c` exactly when its bits 47:44, under the mask `0xF << 44`, are the code of `c` (R78). -/
def Obligations.PlainFrameCommandIsBits47To44 : Prop :=
  ∀ (t : CodeTable) (bits : FrameBits) (c : Command), t.valid = true →
    ((∃ key cs rc addr, decode t (.pf bits) = .ok (Instr.command c key cs rc addr)) ↔
      bits &&& (0xF#56 <<< 44) = (t.code c).setWidth 56 <<< 44)

/-- The ten codes are 0x1 to 0xA, each of one command, and the six other nibbles are of none (R76, R79). -/
def Obligations.CommandCodesAreABijection : Prop :=
  ∀ t : CodeTable, t.valid = true →
    (∀ c, t.commandOf (t.code c) = some c)
      ∧ (∀ n c, t.commandOf n = some c → t.code c = n)
      ∧ (∀ n, t.commandOf n = none ↔ n = 0 ∨ n = 0xB ∨ n = 0xC ∨ n = 0xD ∨ n = 0xE ∨ n = 0xF)

/-- The regression vector fixes Up: with key 0xA7, rolling code 42 and address 0xFFAA11 the thirteen other nibbles XOR to
5, and the checksum is 7 for the command nibble 2 alone, which every legal table gives Up (R77). -/
def Obligations.UpIsCodeTwo : Prop :=
  checksum (assemble 0xA7 0 42 0xFFAA11) = 5
    ∧ (∀ n : Nibble, checksum (assemble 0xA7 n 42 0xFFAA11) = 7 ↔ n = 2)
    ∧ ∀ t : CodeTable, t.valid = true → t.code .up = 2

/-- A text parses to a command exactly when it is the command's spelling after case folding (R82). -/
def Obligations.ParsingIsCaseInsensitiveAndTotal : Prop :=
  (∀ (text : List Char) (c : Command), parseCommand text = some c ↔ text.map foldChar = c.text)
    ∧ parseCommand ['U', 'p'] = some .up ∧ parseCommand ['U', 'P'] = some .up ∧ parseCommand ['u', 'p'] = some .up
    ∧ parseCommand ['u', 'p', 'p'] = none

/-! ### FrameCodec -/

/-- Data bit `n` is bit `7 - (n mod 8)` of byte `n div 8`, which is `F[55 - n]` (R55). -/
def Obligations.DataBitIsMostSignificantFirst : Prop :=
  ∀ (f : Frame) (n : Nat), n < 56 →
    f.dataBit n = (f.byte (n / 8)).getLsbD (7 - n % 8) ∧ f.dataBit n = f.toBits.getLsbD (55 - n)

/-- The fields of a plain frame stand where the layout says, with both byte orders, and read back as what was put in; the
regression vector's do (R52, R53, R132). -/
def Obligations.PlainFrameReadsBack : Prop :=
  ∀ (key : Byte) (code : Nibble) (rc : Code) (addr : Addr),
    let p := plainWithChecksum key code rc addr
    p.b0 = key ∧ hi4 p.b1 = code ∧ lo4 p.b1 = checksum (assemble key code rc addr)
      ∧ p.b2 = rc.extractLsb' 8 8 ∧ p.b3 = rc.extractLsb' 0 8
      ∧ p.b4 = addr.extractLsb' 0 8 ∧ p.b5 = addr.extractLsb' 8 8 ∧ p.b6 = addr.extractLsb' 16 8
      ∧ p.plainCode = rc ∧ p.plainAddr = addr
      ∧ checksum (assemble 0xA7 0x2 42 0xFFAA11) = 7

/-- A complete plain frame has all fourteen nibbles XOR to 0, which is the check of its checksum, and every frame the
codec assembles passes it (R124). -/
def Obligations.ChecksumClosesTheFrame : Prop :=
  (∀ p : Frame, checksumHolds p = true ↔ nibbleXor p = 0)
    ∧ ∀ (key : Byte) (code : Nibble) (rc : Code) (addr : Addr),
        checksumHolds (plainWithChecksum key code rc addr) = true
          ∧ nibbleXor (plainWithChecksum key code rc addr) = 0

/-- The whitened byte `i` is the XOR of the plain bytes 0 to `i`; whitening is a bijection that fixes byte 0 (R126). -/
def Obligations.WhiteningClosedForm : Prop :=
  (∀ (p : Frame) (i : Nat), i < 7 → (whiten p).byte i = (p.bytes.take (i + 1)).foldl (· ^^^ ·) 0)
    ∧ Function.Bijective whiten
    ∧ ∀ p : Frame, (whiten p).b0 = p.b0

/-- De-whitening and whitening are inverse; whitening twice is the frame only where bytes 0 to 4 are zero (R128). -/
def Obligations.DewhiteningInvertsWhitening : Prop :=
  (∀ p : Frame, dewhiten (whiten p) = p)
    ∧ (∀ w : Frame, whiten (dewhiten w) = w)
    ∧ (∀ p : Frame, whiten (whiten p) =
        { b0 := p.b0
          b1 := p.b1
          b2 := p.b2 ^^^ p.b0
          b3 := p.b3 ^^^ p.b1
          b4 := p.b4 ^^^ p.b2 ^^^ p.b0
          b5 := p.b5 ^^^ p.b3 ^^^ p.b1
          b6 := p.b6 ^^^ p.b4 ^^^ p.b2 ^^^ p.b0 })
    ∧ (∀ p : Frame, whiten (whiten p) = p ↔ p.b0 = 0 ∧ p.b1 = 0 ∧ p.b2 = 0 ∧ p.b3 = 0 ∧ p.b4 = 0)
    ∧ ∀ x v : Byte, (x ^^^ v) ^^^ v = x

/-- BUILD with a legal nibble completes: `CMD`, `FRAME`, the response with the frame, `OK`; nothing else changes. The frame
is assembled, its checksum put in, and whitened: de-whitening gives that plain frame back (R120). -/
def Obligations.BuildCompletes : Prop :=
  (∀ (key : Byte) (code : Nibble) (rc : Code) (addr : Addr),
    plainWithChecksum key code rc addr
      = { assemble key code rc addr with b1 := joinNibbles code (checksum (assemble key code rc addr)) })
    ∧ (∀ (t : CodeTable) (key : Byte) (c : Command) (rc : Code) (addr : Addr),
        build t key c rc addr = whiten (plainWithChecksum key (t.code c) rc addr)
          ∧ dewhiten (build t key c rc addr) = plainWithChecksum key (t.code c) rc addr)
    ∧ ∀ (s : State) (key : Byte) (cmd : Nibble) (rc : Code) (addr : Addr) (c : Command),
        s.cfg.codes.commandOf cmd = some c →
          exec (.build key cmd rc addr) s = .next { s with
            latch := { s.latch with cmd := cmd, frame := build s.cfg.codes key c rc addr }
            status := { busy := false, done := true, result := .ok }
            activity := .idle
            ports := { s.ports with rsp := some { result := .ok, frame := some (build s.cfg.codes key c rc addr) } } }

/-- A reserved nibble ends BUILD and SEND_REPEAT with `UnknownCommandError` before anything else, and no command has one
(R79). -/
def Obligations.ReservedNibbleIsUnknownCommand : Prop :=
  ∀ (s : State) (cmd : Nibble), s.cfg.codes.valid = true →
    (cmd = 0 ∨ cmd = 0xB ∨ cmd = 0xC ∨ cmd = 0xD ∨ cmd = 0xE ∨ cmd = 0xF) →
      (∀ c, s.cfg.codes.code c ≠ cmd)
        ∧ (∀ key rc addr, exec (.build key cmd rc addr) s = .next (raise .unknownCommandError s))
        ∧ ∀ reps, exec (.sendRepeat cmd reps) s = .next (raise .unknownCommandError s)

/-- Every command, as a plain frame, completes as BUILD with its code does, whatever the checksum nibble of the word
(R110; that a plain frame presented to the block is built is the model's reading, log 13). -/
def Obligations.CommandsBuildTheirFrame : Prop :=
  ∀ (c : Command) (s : State) (key : Byte) (cs : Nibble) (rc : Code) (addr : Addr), s.cfg.codes.valid = true →
    exec (Instr.command c key cs rc addr) s = exec (.build key (s.cfg.codes.code c) rc addr) s
      ∧ exec (Instr.command c key cs rc addr) s = .next { s with
          latch := { s.latch with cmd := s.cfg.codes.code c, frame := build s.cfg.codes key c rc addr }
          status := { busy := false, done := true, result := .ok }
          activity := .idle
          ports := { s.ports with rsp := some { result := .ok, frame := some (build s.cfg.codes key c rc addr) } } }

/-! ### Errors -/

/-- What raising an error does: the code, `DONE`, not `BUSY`, `IDLE`, the response; every register keeps its value
(R225). -/
def Obligations.RaiseEndsTheOperation : Prop :=
  ∀ (code : ResultCode) (s : State),
    let t := raise code s
    t.status = { busy := false, done := true, result := code }
      ∧ t.tx.phase = .idle ∧ t.activity = .idle ∧ t.ports.rsp = some { result := code, frame := none }
      ∧ t.cfg = s.cfg ∧ t.remote = s.remote ∧ t.latch = s.latch ∧ t.txOut = s.txOut ∧ t.trace = s.trace ∧ t.now = s.now
      ∧ t.store = s.store ∧ t.env = s.env ∧ t.draws = s.draws
      ∧ t.ports.rdData = s.ports.rdData ∧ t.ports.storeRsp = s.ports.storeRsp
      ∧ t.ports.hostStoreRsp = s.ports.hostStoreRsp

/-- SEND_REPEAT without a remote is `BuildError` with no other effect, after the nibble test (R182). -/
def Obligations.SendRepeatWithoutRemoteIsBuildError : Prop :=
  ∀ (s : State) (cmd : Nibble) (reps : Nat), s.remote.valid = false →
    (∀ c, s.cfg.codes.commandOf cmd = some c → exec (.sendRepeat cmd reps) s = .next (raise .buildError s))
      ∧ (s.cfg.codes.commandOf cmd = none → exec (.sendRepeat cmd reps) s = .next (raise .unknownCommandError s))

/-- A reserved `op_sel` is accepted like any operation and completes at once with `IllegalOperation` and no other effect
(R89). -/
def Obligations.ReservedOpSelIsIllegalOperation : Prop :=
  ∀ (s : State) (h : HostWord), s.cfg.valid = true → Store.wf s.store = true → s.accepting = some (.ho h) →
    (h.opSel = 0b000 ∨ h.opSel = 0b101 ∨ h.opSel = 0b110 ∨ h.opSel = 0b111) →
      step s = .next (raise .illegalOperation s.atExec)

/-! ### Transmitter -/

/-- Every data bit is four operations: the opposite level for `T_HALF`, then the level of the bit for `T_HALF`; the payload
is 224 operations and lasts `112 * T_HALF` (R154). -/
def Obligations.PayloadIsManchesterCoded : Prop :=
  ∀ (c : Config) (f : Frame),
    (payloadOps c f).length = 224 ∧ duration (payloadOps c f) = 112 * c.tHalf
      ∧ ∀ n, n < 56 →
        (payloadOps c f)[4 * n]? = some (.set (!f.dataBit n))
          ∧ (payloadOps c f)[4 * n + 1]? = some (.delay c.tHalf)
          ∧ (payloadOps c f)[4 * n + 2]? = some (.set (f.dataBit n))
          ∧ (payloadOps c f)[4 * n + 3]? = some (.delay c.tHalf)

/-- The number of line operations and the duration of a send (R157, R162). -/
def Obligations.SizeOfASend : Prop :=
  ∀ (c : Config) (f : Frame) (reps : Nat),
    (sendOps c f reps).length = 234 + 4 * c.nSyncOnce + reps * (230 + 4 * c.nSyncRepeat)
      ∧ duration (sendOps c f reps) =
        c.tWakeHigh + c.tWakeLow + 2 * c.nSyncOnce * c.tHwsync + c.tSwsyncHigh + 113 * c.tHalf + c.tGap
          + reps * (2 * c.nSyncRepeat * c.tHwsync + c.tSwsyncHigh + 113 * c.tHalf + c.tGap)

/-- The position after `n` successes names exactly operation `n` of the list form, and is `IDLE` after the last (R33, R163,
R164). -/
def Obligations.PositionWalksTheListForm : Prop :=
  ∀ (c : Config) (f : Frame) (reps : Nat), c.valid = true →
    (∀ n, n < (sendOps c f reps).length →
      ∃ p, posAfter c reps n = some p ∧ opAt c f p = (sendOps c f reps)[n]?)
      ∧ posAfter c reps (sendOps c f reps).length = none

/-- SEND in its small-step form does what its list form does, for every sequence of answers (R160, R161, R163). -/
def Obligations.SendRefinesItsListForm : Prop :=
  ∀ (s : State) (frame : FrameBits) (reps : Nat), s.cfg.valid = true →
    ∃ t, exec (.send frame reps) s = .next t
      ∧ forgetPos t = forgetPos (sendListEnd
          (performOps (sendOpsOf s frame reps) (sendStart (Frame.ofBits frame) reps s)))

/-- With a success for every operation, SEND performs exactly its list and completes `OK`, the line low (R158, R160,
R161). -/
def Obligations.SendCompletes : Prop :=
  ∀ (s : State) (frame : FrameBits) (reps : Nat) (rest : List LineAnswer), s.cfg.valid = true →
    s.env.lineAnswers = allOk (sendOpsOf s frame reps).length ++ rest →
      ∃ t, exec (.send frame reps) s = .next t
        ∧ t.trace = s.trace ++ okTrace (sendOpsOf s frame reps)
        ∧ t.now = s.now + duration (sendOpsOf s frame reps)
        ∧ t.txOut = false ∧ t.tx.phase = .idle ∧ t.activity = .idle
        ∧ t.status = { busy := false, done := true, result := .ok }
        ∧ t.ports.rsp = some { result := .ok, frame := none }
        ∧ t.latch.frame = Frame.ofBits frame ∧ t.latch.reps = reps
        ∧ t.env.lineAnswers = rest ∧ SendOnlyKeeps s t

/-- A failed line operation ends SEND there: the trace is the prefix of the list up to and including it, no later
operation is issued, and the result is `TransmitError` (R165, R166). -/
def Obligations.SendAbortsAtTheFirstFailure : Prop :=
  ∀ (s : State) (frame : FrameBits) (reps j : Nat) (op : LineOp) (reached : Bool) (spent : Nat) (rest : List LineAnswer),
    s.cfg.valid = true →
    (sendOpsOf s frame reps)[j]? = some op →
    s.env.lineAnswers = allOk j ++ .fail reached spent :: rest →
      ∃ t, exec (.send frame reps) s = .next t
        ∧ t.trace = s.trace ++ okTrace ((sendOpsOf s frame reps).take j) ++ [op.entry false]
        ∧ t.tx.phase = .idle ∧ t.activity = .idle
        ∧ t.status = { busy := false, done := true, result := .transmitError }
        ∧ t.ports.rsp = some { result := .transmitError, frame := none }
        ∧ t.latch.frame = Frame.ofBits frame ∧ t.latch.reps = reps
        ∧ t.env.lineAnswers = rest ∧ SendOnlyKeeps s t

/-- After an abort of SEND or SEND_REPEAT nothing cleans the line up: a failed LineDelay leaves the level of the last
success, a failed LineSet the old or the requested level (R168). That a failed delay has spent no more than was asked is
the model's reading of the time U4 leaves open (log 8). -/
def Obligations.AbortLeavesTheLine : Prop :=
  ∀ (s t : State) (reps j : Nat) (ops : List LineOp) (op : LineOp) (reached : Bool) (spent : Nat)
    (rest : List LineAnswer),
    s.cfg.valid = true →
    ops[j]? = some op →
    s.env.lineAnswers = allOk j ++ .fail reached spent :: rest →
    ((∃ frame, ops = sendOpsOf s frame reps ∧ exec (.send frame reps) s = .next t)
      ∨ ∃ cmd c, ops = repeatOpsOf s c reps ∧ s.cfg.codes.commandOf cmd = some c ∧ s.remote.valid = true
          ∧ exec (.sendRepeat cmd reps) s = .next t) →
      match op with
      | .delay us =>
        t.txOut = levelAfter s.txOut (ops.take j)
          ∧ s.now + duration (ops.take j) ≤ t.now
          ∧ t.now ≤ s.now + duration (ops.take j) + us
      | .set level =>
        (t.txOut = levelAfter s.txOut (ops.take j) ∨ t.txOut = level)
          ∧ t.now = s.now + duration (ops.take j)

/-- While answers are missing SEND and SEND_REPEAT wait, `BUSY`, at the operation the position names; SEND_REPEAT has then
advanced no code and issued no PERSIST (R33, R42, R141, R163; answers as a list are the model's form, log 7, log 10). -/
def Obligations.SendWaitsForTheLine : Prop :=
  ∀ (s : State) (reps j : Nat), s.cfg.valid = true → s.env.lineAnswers = allOk j →
    (∀ frame : FrameBits, j < (sendOpsOf s frame reps).length →
      ∃ t, exec (.send frame reps) s = .next t
        ∧ t.status.busy = true ∧ t.status.done = false ∧ t.activity = .sending
        ∧ posAfter s.cfg reps j = some t.tx
        ∧ linePort t = (sendOpsOf s frame reps)[j]?
        ∧ t.trace = s.trace ++ okTrace ((sendOpsOf s frame reps).take j)
        ∧ t.now = s.now + duration ((sendOpsOf s frame reps).take j)
        ∧ t.txOut = levelAfter s.txOut ((sendOpsOf s frame reps).take j)
        ∧ t.latch.frame = Frame.ofBits frame ∧ t.latch.reps = reps
        ∧ t.ports = s.ports ∧ t.env.lineAnswers = [] ∧ SendOnlyKeeps s t)
      ∧ ∀ (cmd : Nibble) (c : Command), s.cfg.codes.commandOf cmd = some c → s.remote.valid = true →
          j < (repeatOpsOf s c reps).length →
        ∃ t, exec (.sendRepeat cmd reps) s = .next t
          ∧ t.status.busy = true ∧ t.status.done = false ∧ t.activity = .sendRepeating
          ∧ posAfter s.cfg reps j = some t.tx
          ∧ linePort t = (repeatOpsOf s c reps)[j]? ∧ storePort t = none
          ∧ t.trace = s.trace ++ okTrace ((repeatOpsOf s c reps).take j)
          ∧ t.now = s.now + duration ((repeatOpsOf s c reps).take j)
          ∧ t.txOut = levelAfter s.txOut ((repeatOpsOf s c reps).take j)
          ∧ t.latch = { cmd := cmd, reps := reps, frame := remoteFrame s c }
          ∧ t.remote = s.remote ∧ t.store = s.store ∧ t.env.storeAnswers = s.env.storeAnswers
          ∧ t.ports = s.ports ∧ t.env.lineAnswers = [] ∧ SendKeeps s t

/-- It makes no difference whether the answers are there when a send starts or come while it waits: those of the line for
SEND and SEND_REPEAT, that of the store for SEND_REPEAT (R141, R163, R206; log 7, log 9, log 10). -/
def Obligations.AnswersMayComeLater : Prop :=
  (∀ (s t : State) (frame : FrameBits) (reps : Nat) (later : List LineAnswer),
    exec (.send frame reps) s = .next t → t.activity = .sending →
      exec (.send frame reps) (s.withLineAnswers (s.env.lineAnswers ++ later))
        = .next (sendContinue (t.withLineAnswers later)))
    ∧ (∀ (s t : State) (cmd : Nibble) (reps : Nat) (later : List LineAnswer),
        exec (.sendRepeat cmd reps) s = .next t → t.activity = .sendRepeating →
          exec (.sendRepeat cmd reps) (s.withLineAnswers (s.env.lineAnswers ++ later))
            = .next (sendRepeatContinue (t.withLineAnswers later)))
    ∧ ∀ (s t : State) (cmd : Nibble) (reps : Nat) (later : List StoreAnswer),
        exec (.sendRepeat cmd reps) s = .next t → t.activity = .persisting →
          exec (.sendRepeat cmd reps) (s.withStoreAnswers (s.env.storeAnswers ++ later))
            = .next (persistContinue (t.withStoreAnswers later))

/-- The waveform of a trace: its successful delays are held at the level of the last successful LineSet before each; the
waveform has those levels at every microsecond, lasts as long as those delays together, has no run of no time, and no two
adjacent runs of one level (R39). -/
def Obligations.WaveformMergesEqualLevels : Prop :=
  ∀ (level : Level) (entries : List TraceEntry),
    heldLevels level entries
        = (List.range entries.length).filterMap (fun j =>
            match entries[j]? with
            | some (TraceEntry.delay us true) => some (lastLevel level (entries.take j), us)
            | _ => none)
      ∧ everyMicrosecond (waveform level entries) = everyMicrosecond (heldLevels level entries)
      ∧ ((waveform level entries).map Prod.snd).sum = traceTime entries
      ∧ (∀ run ∈ waveform level entries, run.2 ≠ 0)
      ∧ ((waveform level entries).map Prod.fst).IsChain (· ≠ ·)

/-- A symbol is its two pulses of `T_HALF`: with four successes it completes, the line at the level of the bit (R74,
R154; a symbol as an instruction of its own is the model's framing, log 14). -/
def Obligations.SymbolsComplete : Prop :=
  ∀ (s : State) (b : Bool) (rest : List LineAnswer), s.env.lineAnswers = allOk 4 ++ rest →
    exec (if b then .bit1 else .bit0) s = .next { s with
      txOut := b
      trace := s.trace ++
        [.set (!b) true, .delay s.cfg.tHalf true, .set b true, .delay s.cfg.tHalf true]
      now := s.now + s.cfg.tHalf + s.cfg.tHalf
      status := { s.status with busy := false }
      activity := .idle
      env := { s.env with lineAnswers := rest } }

/-- A failure in a symbol is a `TransmitError` at the operation that failed, nothing after it is issued, and the line stays
as it is then; with answers missing the symbol waits, `BUSY`, at its next operation (R141, R165, R168; a symbol as an
instruction of its own is the model's framing, log 14, and the bound on a failed delay's time its reading of U4, log 8). -/
def Obligations.SymbolsAbortOrWait : Prop :=
  ∀ (s : State) (b : Bool) (j : Nat) (op : LineOp), (bitOps s.cfg b)[j]? = some op →
    (∀ (reached : Bool) (spent : Nat) (rest : List LineAnswer),
      s.env.lineAnswers = allOk j ++ .fail reached spent :: rest →
        ∃ t, exec (if b then .bit1 else .bit0) s = .next t
          ∧ t.trace = s.trace ++ okTrace ((bitOps s.cfg b).take j) ++ [op.entry false]
          ∧ (match op with
            | .delay us =>
              t.txOut = levelAfter s.txOut ((bitOps s.cfg b).take j)
                ∧ s.now + duration ((bitOps s.cfg b).take j) ≤ t.now
                ∧ t.now ≤ s.now + duration ((bitOps s.cfg b).take j) + us
            | .set level =>
              (t.txOut = levelAfter s.txOut ((bitOps s.cfg b).take j) ∨ t.txOut = level)
                ∧ t.now = s.now + duration ((bitOps s.cfg b).take j))
          ∧ t.status = { busy := false, done := true, result := .transmitError }
          ∧ t.activity = .idle ∧ t.tx = { s.tx with phase := .idle }
          ∧ t.ports = { s.ports with rsp := some { result := .transmitError, frame := none } }
          ∧ t.remote = s.remote ∧ t.latch = s.latch ∧ t.store = s.store ∧ t.cfg = s.cfg ∧ t.draws = s.draws
          ∧ t.env = { s.env with lineAnswers := rest })
      ∧ (s.env.lineAnswers = allOk j →
        ∃ t, exec (if b then .bit1 else .bit0) s = .next t
          ∧ t.trace = s.trace ++ okTrace ((bitOps s.cfg b).take j)
          ∧ t.txOut = levelAfter s.txOut ((bitOps s.cfg b).take j)
          ∧ t.now = s.now + duration ((bitOps s.cfg b).take j)
          ∧ t.status = { s.status with busy := true }
          ∧ t.activity = .symbol ((bitOps s.cfg b).drop j) ∧ linePort t = some op ∧ t.tx = s.tx ∧ t.ports = s.ports
          ∧ t.remote = s.remote ∧ t.latch = s.latch ∧ t.store = s.store ∧ t.cfg = s.cfg ∧ t.draws = s.draws
          ∧ t.env = { s.env with lineAnswers := [] })

/-! ### Sequencer -/

/-- CREATE writes the remote and completes `OK`; it touches no store, no line and no other register (R180). -/
def Obligations.CreateCompletes : Prop :=
  ∀ (s : State) (key : Byte) (addr : Addr) (rc : Code),
    exec (.create key addr rc) s = .next { s with
      remote := { key := key, address := addr, rollingCode := rc, valid := true }
      status := { busy := false, done := true, result := .ok }
      activity := .idle
      ports := { s.ports with rsp := some { result := .ok, frame := none } } }

/-- SEND_REPEAT with the line and the store healthy: the frame of the code before the advance goes out in full, then the
code advances by 1 modulo 2^16, then the store entry has the advanced code (R181, R183 to R187). -/
def Obligations.SendRepeatCompletes : Prop :=
  ∀ (s : State) (cmd : Nibble) (reps : Nat) (c : Command) (e : StoreEntry) (rest : List LineAnswer)
    (as : List StoreAnswer),
    s.cfg.valid = true → s.cfg.codes.commandOf cmd = some c → s.remote.valid = true →
    Store.lookup s.remote.address s.store = some e →
    s.env.lineAnswers = allOk (repeatOpsOf s c reps).length ++ rest →
    s.env.storeAnswers = .ok :: as →
      ∃ t, exec (.sendRepeat cmd reps) s = .next t
        ∧ t.trace = s.trace ++ okTrace (repeatOpsOf s c reps)
        ∧ t.now = s.now + duration (repeatOpsOf s c reps)
        ∧ t.txOut = false ∧ t.tx.phase = .idle ∧ t.activity = .idle
        ∧ t.status = { busy := false, done := true, result := .ok }
        ∧ t.ports.rsp = some { result := .ok, frame := none }
        ∧ t.latch = { cmd := cmd, reps := reps, frame := remoteFrame s c }
        ∧ t.remote.rollingCode = s.remote.rollingCode + 1
        ∧ t.store = Store.overwrite s.remote.address (s.remote.rollingCode + 1) s.store
        ∧ Store.lookup s.remote.address t.store = some { e with rollingCode := s.remote.rollingCode + 1 }
        ∧ t.ports.storeRsp = some { status := .success, table := none }
        ∧ t.env.lineAnswers = rest ∧ t.env.storeAnswers = as ∧ SendKeeps s t

/-- A line failure anywhere in the send: `TransmitError`, the code is not advanced and no PERSIST is issued (R184). -/
def Obligations.TransmitErrorKeepsTheCode : Prop :=
  ∀ (s : State) (cmd : Nibble) (reps j : Nat) (c : Command) (op : LineOp) (reached : Bool) (spent : Nat)
    (rest : List LineAnswer),
    s.cfg.valid = true → s.cfg.codes.commandOf cmd = some c → s.remote.valid = true →
    (repeatOpsOf s c reps)[j]? = some op →
    s.env.lineAnswers = allOk j ++ .fail reached spent :: rest →
      ∃ t, exec (.sendRepeat cmd reps) s = .next t
        ∧ t.trace = s.trace ++ okTrace ((repeatOpsOf s c reps).take j) ++ [op.entry false]
        ∧ t.tx.phase = .idle ∧ t.activity = .idle
        ∧ t.status = { busy := false, done := true, result := .transmitError }
        ∧ t.ports.rsp = some { result := .transmitError, frame := none }
        ∧ t.latch = { cmd := cmd, reps := reps, frame := remoteFrame s c }
        ∧ t.remote = s.remote ∧ t.store = s.store
        ∧ t.env.storeAnswers = s.env.storeAnswers ∧ t.ports.storeRsp = s.ports.storeRsp
        ∧ t.env.lineAnswers = rest ∧ SendKeeps s t

/-- A persist failure after the send: `StorageError`, the whole send went out and the code stays advanced; with no entry
the store is unchanged, with a failed write the entry has the old or the new code (R188, R203, R204). That the report of
a missing entry uses one answer of the store, whatever it carries, is the model's form (log 9). -/
def Obligations.StorageErrorKeepsTheAdvance : Prop :=
  ∀ (s : State) (cmd : Nibble) (reps : Nat) (c : Command) (rest : List LineAnswer) (a : StoreAnswer)
    (as : List StoreAnswer),
    s.cfg.valid = true → s.cfg.codes.commandOf cmd = some c → s.remote.valid = true →
    s.env.lineAnswers = allOk (repeatOpsOf s c reps).length ++ rest →
    s.env.storeAnswers = a :: as → (Store.lookup s.remote.address s.store = none ∨ a ≠ .ok) →
      ∃ t, exec (.sendRepeat cmd reps) s = .next t
        ∧ t.trace = s.trace ++ okTrace (repeatOpsOf s c reps)
        ∧ t.now = s.now + duration (repeatOpsOf s c reps)
        ∧ t.txOut = false ∧ t.tx.phase = .idle ∧ t.activity = .idle
        ∧ t.status = { busy := false, done := true, result := .storageError }
        ∧ t.ports.rsp = some { result := .storageError, frame := none }
        ∧ t.latch = { cmd := cmd, reps := reps, frame := remoteFrame s c }
        ∧ t.remote.rollingCode = s.remote.rollingCode + 1
        ∧ (Store.lookup s.remote.address s.store = none →
          t.store = s.store ∧ t.ports.storeRsp = some { status := .noEntry, table := none })
        ∧ (∀ e, Store.lookup s.remote.address s.store = some e →
          t.ports.storeRsp = some { status := .ioFailure, table := none }
            ∧ t.store = if a = .failKept then s.store
              else Store.overwrite s.remote.address (s.remote.rollingCode + 1) s.store)
        ∧ t.env.lineAnswers = rest ∧ t.env.storeAnswers = as ∧ SendKeeps s t

/-- A store that has not answered keeps SEND_REPEAT waiting, `BUSY`, the send out and the code advanced, with the PERSIST on
the store port, whether the store has an entry or not (R186, R206, R239). That the table is unchanged while the PERSIST
waits is the model's reading (log 9). -/
def Obligations.SendRepeatWaitsForTheStore : Prop :=
  ∀ (s : State) (cmd : Nibble) (reps : Nat) (c : Command) (rest : List LineAnswer),
    s.cfg.valid = true → s.cfg.codes.commandOf cmd = some c → s.remote.valid = true →
    s.env.lineAnswers = allOk (repeatOpsOf s c reps).length ++ rest →
    s.env.storeAnswers = [] →
      ∃ t, exec (.sendRepeat cmd reps) s = .next t
        ∧ t.status.busy = true ∧ t.status.done = false ∧ t.activity = .persisting
        ∧ storePort t = some (.persist s.remote.address (s.remote.rollingCode + 1))
        ∧ t.remote.rollingCode = s.remote.rollingCode + 1
        ∧ t.trace = s.trace ++ okTrace (repeatOpsOf s c reps)
        ∧ t.now = s.now + duration (repeatOpsOf s c reps)
        ∧ t.txOut = false ∧ t.tx.phase = .idle
        ∧ t.latch = { cmd := cmd, reps := reps, frame := remoteFrame s c }
        ∧ t.ports = s.ports ∧ t.env.lineAnswers = rest ∧ t.env.storeAnswers = []
        ∧ t.store = s.store ∧ SendKeeps s t

/-- After N consecutive successful SEND_REPEAT operations from code R, the answers there at once or later, the register and
the store entry hold R + N modulo 65536, and the sends carried the codes R, R + 1, ..., one each (R191). -/
def Obligations.NSendsAdvanceByN : Prop :=
  ∀ (codes : List Code) (s t : State), OkSends codes s t →
    t.remote.rollingCode = s.remote.rollingCode + BitVec.ofNat 16 codes.length
      ∧ codes = (List.range codes.length).map (fun i => s.remote.rollingCode + BitVec.ofNat 16 i)
      ∧ t.remote.address = s.remote.address
      ∧ (codes ≠ [] → ∃ e, Store.lookup t.remote.address t.store = some e ∧ e.rollingCode = t.remote.rollingCode)

/-! ### Store -/

/-- LOAD answers with the whole table and changes nothing of the block or the store (R200; that the host side has a list of
answers and a presentation of its own is the model's form, log 15). -/
def Obligations.LoadCompletes : Prop :=
  ∀ (s : State) (as : List StoreAnswer), s.env.hostTxns = [] → s.env.hostAnswers = .ok :: as →
    exec .load s = .next { s with
      ports := { s.ports with hostStoreRsp := some { status := .success, table := some s.store } }
      env := { s.env with hostAnswers := as } }

/-- A store that cannot be read answers LOAD with a failure and no table (R200); one that has not answered what the host
side asked before, or not this LOAD, leaves it outstanding and nothing else changed, and an answer that comes later serves
the oldest (R206). The model's choice: both failing answers mean a store that cannot be read (log 9), and the host side has
its own list of transactions, its own answers and its own presentation (log 15). -/
def Obligations.LoadFailsOrWaits : Prop :=
  ∀ s : State,
    (∀ (a : StoreAnswer) (as : List StoreAnswer), s.env.hostTxns = [] → s.env.hostAnswers = a :: as → a ≠ .ok →
      exec .load s = .next { s with
        ports := { s.ports with hostStoreRsp := some { status := .ioFailure, table := none } }
        env := { s.env with hostAnswers := as } })
      ∧ (s.env.hostTxns ≠ [] ∨ s.env.hostAnswers = [] →
        exec .load s = .next { s with env := { s.env with hostTxns := s.env.hostTxns ++ [.load] } })
      ∧ ∀ (a : StoreAnswer) (rest : List StoreTxn), s.cfg.valid = true → Store.wf s.store = true →
          s.landing = .hostAnswer a → s.env.hostTxns = .load :: rest →
            step s = .next { s with
              ports := { Ports.quiet with
                hostStoreRsp := some (if a = .ok then { status := .success, table := some s.store }
                  else { status := .ioFailure, table := none }) }
              env := { s.env with inputs := s.env.inputs.tail, hostTxns := rest } }

/-- PERSIST that succeeds overwrites the code of the entry with the address, with status 0 (R202; log 15). -/
def Obligations.PersistCompletes : Prop :=
  ∀ (s : State) (addr : Addr) (rc : Code) (e : StoreEntry) (as : List StoreAnswer),
    Store.lookup addr s.store = some e → s.env.hostTxns = [] → s.env.hostAnswers = .ok :: as →
      exec (.persist addr rc) s = .next { s with
        store := Store.overwrite addr rc s.store
        ports := { s.ports with hostStoreRsp := some { status := .success, table := none } }
        env := { s.env with hostAnswers := as } }

/-- PERSIST to an address with no entry is reported with status 1 and changes no entry; one whose write failed is reported
with status 2, the old or the new code in the entry (R203, R204); one not answered is outstanding, and an answer that comes
later serves the oldest in the same way (R206; log 9, log 15). -/
def Obligations.PersistFailsOrWaits : Prop :=
  ∀ (s : State) (addr : Addr) (rc : Code),
    (∀ a as, Store.lookup addr s.store = none → s.env.hostTxns = [] → s.env.hostAnswers = a :: as →
      exec (.persist addr rc) s = .next { s with
        ports := { s.ports with hostStoreRsp := some { status := .noEntry, table := none } }
        env := { s.env with hostAnswers := as } })
      ∧ (∀ e a as, Store.lookup addr s.store = some e → s.env.hostTxns = [] → s.env.hostAnswers = a :: as → a ≠ .ok →
          exec (.persist addr rc) s = .next { s with
            store := if a = .failKept then s.store else Store.overwrite addr rc s.store
            ports := { s.ports with hostStoreRsp := some { status := .ioFailure, table := none } }
            env := { s.env with hostAnswers := as } })
      ∧ (s.env.hostTxns ≠ [] ∨ s.env.hostAnswers = [] →
          exec (.persist addr rc) s
            = .next { s with env := { s.env with hostTxns := s.env.hostTxns ++ [.persist addr rc] } })
      ∧ ∀ (a : StoreAnswer) (rest : List StoreTxn), s.cfg.valid = true → Store.wf s.store = true →
          s.landing = .hostAnswer a → s.env.hostTxns = .persist addr rc :: rest →
            step s = .next { s with
              store := if a = .failKept then s.store else Store.overwrite addr rc s.store
              ports := { Ports.quiet with
                hostStoreRsp := some {
                  status := if Store.lookup addr s.store = none then .noEntry
                    else if a = .ok then .success else .ioFailure
                  table := none } }
              env := { s.env with inputs := s.env.inputs.tail, hostTxns := rest } }

/-- An overwrite changes the code of the one entry with that address, and no name, no address, no other code and not the
number of entries (R202, R208). -/
def Obligations.OverwriteTouchesOneEntry : Prop :=
  ∀ (table : List StoreEntry) (addr other : Addr) (rc : Code),
    (Store.overwrite addr rc table).map StoreEntry.name = table.map StoreEntry.name
      ∧ (Store.overwrite addr rc table).map StoreEntry.address = table.map StoreEntry.address
      ∧ Store.lookup addr (Store.overwrite addr rc table)
          = (Store.lookup addr table).map (fun e => { e with rollingCode := rc })
      ∧ (other ≠ addr → Store.lookup other (Store.overwrite addr rc table) = Store.lookup other table)
      ∧ (Store.wf table = true → Store.wf (Store.overwrite addr rc table) = true)

/-- LOAD, PERSIST, LOAD round-trips: the second LOAD answers the first one's table with that one code changed (R205), for
the host side's own PERSIST (log 15) and with nothing between the three. -/
def Obligations.LoadPersistLoadRoundTrips : Prop :=
  ∀ (s : State) (addr : Addr) (rc : Code) (e : StoreEntry) (as : List StoreAnswer),
    Store.lookup addr s.store = some e → s.env.hostTxns = [] → s.env.hostAnswers = .ok :: .ok :: .ok :: as →
      ∃ t u v, exec .load s = .next t ∧ exec (.persist addr rc) t = .next u ∧ exec .load u = .next v
        ∧ t.ports.hostStoreRsp = some { status := .success, table := some s.store }
        ∧ v.ports.hostStoreRsp = some { status := .success, table := some (Store.overwrite addr rc s.store) }

/-! ### The step and the whole machine -/

/-- A step that takes a request whose word decodes to a well-formed instruction runs that instruction, in the state with
the ports' presentation withdrawn, the tick used up and the request gone from the queue (R42, R88). -/
def Obligations.StepRunsTheDecodedInstruction : Prop :=
  ∀ (s : State) (w : PortWord) (i : Instr), s.cfg.valid = true → Store.wf s.store = true →
    s.accepting = some w → decode s.cfg.codes w = .ok i → i.wellFormed s.cfg = true →
      step s = exec i s.atExec

/-- A tick that takes no request goes on with the operation in progress, and with nothing in progress leaves the state, the
ports' presentation withdrawn (R42, R163, R206; log 10, log 28). -/
def Obligations.StepGoesOnWithTheOperation : Prop :=
  ∀ s : State, s.cfg.valid = true → Store.wf s.store = true → s.landing = .tick → s.accepting = none →
    let u := (clearPorts s).withInputs s.env.inputs.tail
    (s.activity = .sending → step s = .next (sendContinue u))
      ∧ (s.activity = .sendRepeating → step s = .next (sendRepeatContinue u))
      ∧ (s.activity = .persisting → step s = .next (persistContinue u))
      ∧ (∀ left, s.activity = .symbol left → step s = .next (symbolContinue left u))
      ∧ (s.activity = .idle → s.env.pending = [] ∧ step s = .next u)

/-- A table word placed by `withFetchWord` is what the next step accepts. -/
def Obligations.FetchWordIsAcceptedNext : Prop :=
  ∀ (s : State) (nbits w : Nat) (p : PortWord), tableWord nbits w = some p →
    (s.withFetchWord nbits w).accepting = some p

/-- A Config that breaks a constraint, a store with equal names or addresses, and a host read above 15 are refused (R10,
R51, R239). The model's choice for the words that run no instruction: two pulses of one level and a repetitions operand
wider than `REP_W` are refused (log 16), an edit from outside to a table that breaks R51 is refused (log 23), and a plain
frame whose command nibble is of no command completes with `UnknownCommandError` (log 17). -/
def Obligations.BadInputsAreRefused : Prop :=
  ∀ s : State,
    (s.cfg.valid = false → step s = .refused .badConfig)
      ∧ (s.cfg.valid = true → Store.wf s.store = false → step s = .refused .badStore)
      ∧ (s.cfg.valid = true → Store.wf s.store = true →
        (∀ n, s.landing = .read n → 15 < n → step s = .refused .noSuchRegister)
          ∧ (∀ table, s.landing = .storeEdit table → Store.wf table = false → step s = .refused .badStore)
          ∧ (∀ pulses, s.accepting = some (.ms pulses) → (pulses = 0b00 ∨ pulses = 0b11) →
            step s = .refused .noSymbol)
          ∧ (∀ h, s.accepting = some (.ho h) → (h.opSel = 0b011 ∨ h.opSel = 0b100) → s.cfg.fits h.opReps = false →
            step s = .refused .operandTooWide)
          ∧ ∀ bits, s.accepting = some (.pf bits) → s.cfg.codes.commandOf (hi4 (Frame.ofBits bits).b1) = none →
            step s = .next (raise .unknownCommandError s.atExec))

/-- A host read of the numbers 0 to 15 presents STATUS, KEY, ADDRESS, ROLLING_CODE, CMD, REPS, FRAME, TX_POS with TX_OUT, and
the eight constants in order, at any time, and changes nothing else (R43, R61; a port presents for one step, log 19). That
the numbers 1 to 6 give one held value also while nothing has written the register since reset, where R41 and U6 leave
the read unspecified, is the model's choice (log 3), and so is the form of number 7 (log 26). -/
def Obligations.HostReadPresentsTheRegister : Prop :=
  ∀ (s : State) (n : Nat) (v : RegValue), s.cfg.valid = true → Store.wf s.store = true → s.landing = .read n →
    ([.num (statusWord s).toNat, .num s.remote.key.toNat, .num s.remote.address.toNat, .num s.remote.rollingCode.toNat,
      .num s.latch.cmd.toNat, .num s.latch.reps, .num s.latch.frame.toBits.toNat, .position s.tx s.txOut,
      .num s.cfg.tHalf, .num s.cfg.tWakeHigh, .num s.cfg.tWakeLow, .num s.cfg.tHwsync, .num s.cfg.nSyncOnce,
      .num s.cfg.nSyncRepeat, .num s.cfg.tSwsyncHigh, .num s.cfg.tGap] : List RegValue)[n]? = some v →
      step s = .next { s with
        ports := { rsp := none, rdData := some v, storeRsp := none, hostStoreRsp := none }
        env := { s.env with inputs := s.env.inputs.tail } }

/-- `STATUS`: bit 0 `BUSY`, bit 1 `DONE`, bit 2 `REMOTE_VALID`, bits 5:3 `RESULT`, bits 7:6 read as 0 (R43); the codes of
`RESULT` are 0 OK, 1 BuildError, 2 TransmitError, 3 StorageError, 4 UnknownCommandError, 5 IllegalOperation (R221). -/
def Obligations.StatusWordLayout : Prop :=
  (∀ s : State,
    (statusWord s).getLsbD 0 = s.status.busy ∧ (statusWord s).getLsbD 1 = s.status.done
      ∧ (statusWord s).getLsbD 2 = s.remote.valid
      ∧ (statusWord s).extractLsb' 3 3 = s.status.result.toBits
      ∧ (statusWord s).extractLsb' 6 2 = 0)
    ∧ ResultCode.toBits .ok = 0 ∧ ResultCode.toBits .buildError = 1 ∧ ResultCode.toBits .transmitError = 2
    ∧ ResultCode.toBits .storageError = 3 ∧ ResultCode.toBits .unknownCommandError = 4
    ∧ ResultCode.toBits .illegalOperation = 5

/-- The state after reset: idle, no remote, the line low, nothing emitted (R47; the registers without a reset value are
free, log 3, and the constants and the empty store are the model's, log 4, log 6: nothing is said of them). -/
def Obligations.ResetStateIsIdle : Prop :=
  let s := State.reset
  s.remote.valid = false ∧ s.status = { busy := false, done := false, result := .ok }
    ∧ s.tx = { k := 0, phase := .idle, i := 0, half := false, stage := false }
    ∧ s.txOut = false ∧ s.trace = [] ∧ statusWord s = 0

/-- The reset input, whatever the block was doing: the reset values, the line low, the trace empty, no result reported;
the constants and the store stay (R260, R261, R262). The requests that wait, the answers given and the host side's own
transactions stay too (log 18), and a PERSIST of the block that is not answered writes nothing (log 31): these are the
model's choices. -/
def Obligations.ResetInputCutsEverything : Prop :=
  ∀ s : State, s.cfg.valid = true → Store.wf s.store = true → s.landing = .reset →
    ∃ t, step s = .next t
      ∧ t.remote.valid = false ∧ t.status = { busy := false, done := false, result := .ok }
      ∧ t.tx = { k := 0, phase := .idle, i := 0, half := false, stage := false }
      ∧ t.txOut = false ∧ t.trace = [] ∧ t.activity = .idle ∧ t.ports.rsp = none
      ∧ t.cfg = s.cfg ∧ t.store = s.store
      ∧ t.env = { s.env with inputs := s.env.inputs.tail }

/-- The reset state is legal. -/
def Obligations.ResetStateIsLegal : Prop := Inv State.reset

/-- Every step keeps the states legal (R10, R24, R31, R32, R35, R51, R182). -/
def Obligations.EveryStepKeepsStatesLegal : Prop :=
  ∀ s t : State, Inv s → step s = .next t → Inv t

/-- The constant table never changes (R5, R37). -/
def Obligations.ConstantTableNeverChanges : Prop :=
  ∀ s t : State, step s = .next t → t.cfg = s.cfg

/-- But for a reset and a CREATE, no step changes `KEY`, `ADDRESS` or `REMOTE_VALID`, and `ROLLING_CODE` stays or advances
by 1; it advances only in a SEND_REPEAT (R20 to R23, R190, R194). -/
def Obligations.OnlyCreateAndSendRepeatWriteTheRemote : Prop :=
  ∀ s t : State, step s = .next t → s.landing ≠ .reset →
    (∀ key addr rc, s.running ≠ some (.create key addr rc)) →
      t.remote = s.remote
        ∨ (t.remote = { s.remote with rollingCode := s.remote.rollingCode + 1 }
            ∧ s.landing = .tick
            ∧ (s.activity = .sendRepeating ∨ ∃ cmd reps, s.running = some (.sendRepeat cmd reps)))

/-- The trace only grows, but for a reset (R38). -/
def Obligations.TraceOnlyGrows : Prop :=
  ∀ s t : State, step s = .next t → s.landing ≠ .reset → s.trace <+: t.trace

/-- The store changes only where the step may write it, and only by an overwrite: SEND_REPEAT's PERSIST writes the remote's
address with the code, advanced if the send ends in this step; a PERSIST of the host side writes its own operands, when it
runs or when its answer comes. Every other step leaves the store, unless a party outside edits it (R202, R207). That the
table changes only in the step that uses the store's answer, and stays while a PERSIST waits, is the model's reading
(log 9), and the host side's own PERSIST is its choice (log 15). -/
def Obligations.StoreChangesOnlyByPersist : Prop :=
  ∀ s t : State, step s = .next t → (∀ table, s.landing ≠ .storeEdit table) →
    t.store = s.store ∨ ∃ addr rc, s.storeWrite = some (addr, rc) ∧ t.store = Store.overwrite addr rc s.store

/-- While `BUSY` is 1 no request of the command port is accepted, lost, reordered or refused, and `FRAME`, `CMD` and `REPS`
do not change (R25, R42, R66). That the host side's transactions towards the store do not wait for `BUSY` is the model's
choice (log 15): one may be taken. -/
def Obligations.RequestsWaitWhileBusy : Prop :=
  ∀ s : State, Inv s → s.status.busy = true → s.landing = .tick →
    ∃ t, step s = .next t ∧ t.latch = s.latch
      ∧ t.env.pending.filter (fun w => !isStoreWord w) = s.env.pending.filter (fun w => !isStoreWord w)
      ∧ ((s.accepting = none ∧ t.env.pending = s.env.pending)
        ∨ ∃ w before later, s.accepting = some w ∧ isStoreWord w = true
            ∧ s.env.pending = before ++ w :: later ∧ t.env.pending = before ++ later)

/-- The landing of an input other than a reset changes no register of the block, ends no operation and takes no waiting
request away (R61, R169). For an answer of the line or the store this is the model's form: it is kept in a list as it lands
(log 7, log 9, log 15), which is no step of the core (log 12); that it sets `TX_OUT` or ends a send comes in the core's
later step that uses it (R141, R165). -/
def Obligations.InputsDoNotDisturbTheBlock : Prop :=
  ∀ s t : State, step s = .next t → s.landing ≠ .tick → s.landing ≠ .reset →
    t.cfg = s.cfg ∧ t.remote = s.remote ∧ t.latch = s.latch ∧ t.tx = s.tx ∧ t.txOut = s.txOut
      ∧ t.status = s.status ∧ t.activity = s.activity ∧ t.trace = s.trace ∧ t.now = s.now ∧ t.draws = s.draws
      ∧ s.env.pending.Sublist t.env.pending

/-- The response port presents a result only at a completion, equal to `RESULT`, and the block is then ready (R44, R232). -/
def Obligations.ResponseIsPresentedAtCompletion : Prop :=
  ∀ (s t : State) (r : Response), Inv s → step s = .next t → t.ports.rsp = some r →
    r.result = t.status.result ∧ t.status.done = true ∧ t.status.busy = false ∧ t.activity = .idle
      ∧ t.tx.phase = .idle

/-- A line or a store that never answers what the block waits for leaves the block as it is, `BUSY`, but for the ports'
presentation, also where the store has no entry to write (R206, R239; log 19, log 22). That the table too is unchanged
while a PERSIST waits is the model's reading (log 9). -/
def Obligations.UnansweredPortsLeaveTheBlockWaiting : Prop :=
  ∀ s : State, Inv s → s.landing = .tick → s.accepting = none → s.activity ≠ .idle →
    (if s.activity = .persisting then s.env.storeAnswers = [] else s.env.lineAnswers = []) →
      step s = .next ((clearPorts s).withInputs s.env.inputs.tail) ∧ s.status.busy = true
end

