-- ==== Sys2Proof/Laws/Codec.lean ====
section
/-!
SUPPORT. The bit fields of a frame and their inverses, the code table, and the codec's small equations.
-/

namespace Sys2Proof

/-! ### Bit fields and their inverses -/

@[simp] theorem toBits_ofBits (w : FrameBits) : (Frame.ofBits w).toBits = w := by
  apply BitVec.eq_of_getLsbD_eq
  intro i hi
  simp only [Frame.toBits, Frame.ofBits, BitVec.getLsbD_or, BitVec.getLsbD_shiftLeft, BitVec.getLsbD_setWidth, BitVec.getLsbD_extractLsb']
  interval_cases i <;> simp

@[simp] theorem ofBits_toBits (f : Frame) : Frame.ofBits f.toBits = f := by
  obtain ⟨b0,b1,b2,b3,b4,b5,b6⟩ := f
  simp only [Frame.toBits, Frame.ofBits, Frame.mk.injEq]
  refine ⟨?_,?_,?_,?_,?_,?_,?_⟩ <;> (apply BitVec.eq_of_getLsbD_eq; intro i hi; interval_cases i <;> simp)

@[simp] theorem hi4_join (h l : Nibble) : hi4 (joinNibbles h l) = h := by revert h l; decide

@[simp] theorem lo4_join (h l : Nibble) : lo4 (joinNibbles h l) = l := by revert h l; decide

@[simp] theorem join_hi_lo (b : Byte) : joinNibbles (hi4 b) (lo4 b) = b := by revert b; decide

@[simp] theorem joinCode_hi_lo (rc : Code) : joinCode (codeHi rc) (codeLo rc) = rc := by
  apply BitVec.eq_of_getLsbD_eq; intro i hi; simp only [joinCode, codeHi, codeLo]; interval_cases i <;> simp

@[simp] theorem joinAddr_parts (a : Addr) : joinAddr (addrLo a) (addrMid a) (addrHi a) = a := by
  apply BitVec.eq_of_getLsbD_eq; intro i hi; simp only [joinAddr, addrLo, addrMid, addrHi]; interval_cases i <;> simp

@[simp] theorem codeHi_join (h l : Byte) : codeHi (joinCode h l) = h := by
  apply BitVec.eq_of_getLsbD_eq; intro i hi; simp only [joinCode, codeHi]; interval_cases i <;> simp

@[simp] theorem codeLo_join (h l : Byte) : codeLo (joinCode h l) = l := by
  apply BitVec.eq_of_getLsbD_eq; intro i hi; simp only [joinCode, codeLo]; interval_cases i <;> simp

@[simp] theorem addrLo_join (l m h : Byte) : addrLo (joinAddr l m h) = l := by
  apply BitVec.eq_of_getLsbD_eq; intro i hi; simp only [joinAddr, addrLo]; interval_cases i <;> simp

@[simp] theorem addrMid_join (l m h : Byte) : addrMid (joinAddr l m h) = m := by
  apply BitVec.eq_of_getLsbD_eq; intro i hi; simp only [joinAddr, addrMid]; interval_cases i <;> simp

@[simp] theorem addrHi_join (l m h : Byte) : addrHi (joinAddr l m h) = h := by
  apply BitVec.eq_of_getLsbD_eq; intro i hi; simp only [joinAddr, addrHi]; interval_cases i <;> simp

/-- The bits of a plain frame under the table's mask are its command nibble (R78). -/
theorem masked_bits (bits : FrameBits) :
    bits &&& 0x00F00000000000#56 = (hi4 (Frame.ofBits bits).b1).setWidth 56 <<< 44 := by
  have e : (0x00F00000000000#56 : FrameBits) = (0xF#56) <<< 44 := by decide
  rw [e]
  apply BitVec.eq_of_getLsbD_eq
  intro i hi
  by_cases h : i < 44
  · simp only [BitVec.getLsbD_and, BitVec.getLsbD_shiftLeft, h]
    simp
  · obtain ⟨j, rfl⟩ : ∃ j, i = 44 + j := ⟨i - 44, by omega⟩
    have hj : j < 12 := by omega
    simp only [hi4, Frame.ofBits]
    interval_cases j <;> simp

/-! ### The code table -/

/-- What a legal table is. -/
theorem CodeTable.valid_facts (t : CodeTable) (h : t.valid = true) :
    (∀ c, 1 ≤ t.code c ∧ t.code c ≤ 10) ∧ (Command.all.map t.code).Nodup ∧ t.up = 2 := by
  simp only [CodeTable.valid, Bool.and_eq_true, List.all_eq_true, decide_eq_true_eq, beq_iff_eq] at h
  refine ⟨fun c => h.1.1 c (by cases c <;> decide), h.1.2, h.2⟩

/-- No two commands share a code. -/
theorem CodeTable.code_inj (t : CodeTable) (h : t.valid = true) (c d : Command) (e : t.code c = t.code d) : c = d :=
  List.inj_on_of_nodup_map (CodeTable.valid_facts t h).2.1 (by cases c <;> decide) (by cases d <;> decide) e

/-- The decoded command has the nibble as its code. -/
theorem CodeTable.commandOf_some (t : CodeTable) (n c) (h : t.commandOf n = some c) : t.code c = n := by
  simpa using List.find?_some h

/-- The code of a command decodes to it. -/
theorem CodeTable.commandOf_code (t : CodeTable) (h : t.valid = true) (c : Command) : t.commandOf (t.code c) = some c := by
  cases e : t.commandOf (t.code c) with
  | none =>
    have := List.find?_eq_none.1 e c (by cases c <;> decide)
    simp at this
  | some d => rw [code_inj t h _ _ (commandOf_some t _ d e)]

namespace Machine

/-! ### The codec -/

/-- Writing the checksum into the empty low nibble of byte 1. -/
theorem or_nibble (b : Byte) (c : Nibble) (h : lo4 b = 0) : hi4 (b ||| c.setWidth 8) = hi4 b ∧ lo4 (b ||| c.setWidth 8) = c := by
  revert h; revert b c; decide

/-- The checksum's fold, written out. -/
theorem nibbleXor_eq (p : Frame) : nibbleXor p = hi4 p.b0 ^^^ lo4 p.b0 ^^^ hi4 p.b1 ^^^ lo4 p.b1 ^^^ hi4 p.b2 ^^^ lo4 p.b2 ^^^ hi4 p.b3 ^^^ lo4 p.b3 ^^^ hi4 p.b4 ^^^ lo4 p.b4 ^^^ hi4 p.b5 ^^^ lo4 p.b5 ^^^ hi4 p.b6 ^^^ lo4 p.b6 := by
  simp [nibbleXor, Frame.bytes, BitVec.xor_assoc]

theorem xor_cancel (x v : Byte) : x ^^^ v ^^^ v = x := by simp [BitVec.xor_assoc]

/-- De-whitening undoes whitening (R128). -/
theorem dewhiten_whiten (p : Frame) : dewhiten (whiten p) = p := by
  simp [dewhiten, whiten, BitVec.xor_assoc]

/-- The whitened frame of a build carries the rolling code it was built with (R132). -/
theorem carriedCode_build (t : CodeTable) (key : Byte) (c : Command) (rc : Code) (addr : Addr) :
    carriedCode (build t key c rc addr) = rc := by
  simp [carriedCode, build, dewhiten_whiten, plainWithChecksum, assemble, plainFrame, Frame.plainCode]

end Machine

end Sys2Proof
end

