-- ==== Sys2Proof/Laws/State.lean ====
section
/-!
SUPPORT. One lemma per field per named update of the state, true by rfl, so that no proof unfolds a record update.
-/

namespace Sys2Proof.Machine

/-! ### accept -/

@[simp] theorem accept_cfg (s : State) : (accept s).cfg = s.cfg := rfl
@[simp] theorem accept_remote (s : State) : (accept s).remote = s.remote := rfl
@[simp] theorem accept_latch (s : State) : (accept s).latch = s.latch := rfl
@[simp] theorem accept_tx (s : State) : (accept s).tx = s.tx := rfl
@[simp] theorem accept_txOut (s : State) : (accept s).txOut = s.txOut := rfl
@[simp] theorem accept_status (s : State) : (accept s).status = { s.status with busy := true, done := false } := rfl
@[simp] theorem accept_activity (s : State) : (accept s).activity = s.activity := rfl
@[simp] theorem accept_trace (s : State) : (accept s).trace = s.trace := rfl
@[simp] theorem accept_now (s : State) : (accept s).now = s.now := rfl
@[simp] theorem accept_store (s : State) : (accept s).store = s.store := rfl
@[simp] theorem accept_ports (s : State) : (accept s).ports = s.ports := rfl
@[simp] theorem accept_env (s : State) : (accept s).env = s.env := rfl
@[simp] theorem accept_draws (s : State) : (accept s).draws = s.draws := rfl

/-! ### complete -/

@[simp] theorem complete_cfg (code : ResultCode) (frame : Option Frame) (s : State) : (complete code frame s).cfg = s.cfg := rfl
@[simp] theorem complete_remote (code : ResultCode) (frame : Option Frame) (s : State) : (complete code frame s).remote = s.remote := rfl
@[simp] theorem complete_latch (code : ResultCode) (frame : Option Frame) (s : State) : (complete code frame s).latch = s.latch := rfl
@[simp] theorem complete_tx (code : ResultCode) (frame : Option Frame) (s : State) : (complete code frame s).tx = s.tx := rfl
@[simp] theorem complete_txOut (code : ResultCode) (frame : Option Frame) (s : State) : (complete code frame s).txOut = s.txOut := rfl
@[simp] theorem complete_status (code : ResultCode) (frame : Option Frame) (s : State) : (complete code frame s).status = { busy := false, done := true, result := code } := rfl
@[simp] theorem complete_activity (code : ResultCode) (frame : Option Frame) (s : State) : (complete code frame s).activity = .idle := rfl
@[simp] theorem complete_trace (code : ResultCode) (frame : Option Frame) (s : State) : (complete code frame s).trace = s.trace := rfl
@[simp] theorem complete_now (code : ResultCode) (frame : Option Frame) (s : State) : (complete code frame s).now = s.now := rfl
@[simp] theorem complete_store (code : ResultCode) (frame : Option Frame) (s : State) : (complete code frame s).store = s.store := rfl
@[simp] theorem complete_ports (code : ResultCode) (frame : Option Frame) (s : State) : (complete code frame s).ports = { s.ports with rsp := some { result := code, frame := frame } } := rfl
@[simp] theorem complete_env (code : ResultCode) (frame : Option Frame) (s : State) : (complete code frame s).env = s.env := rfl
@[simp] theorem complete_draws (code : ResultCode) (frame : Option Frame) (s : State) : (complete code frame s).draws = s.draws := rfl

/-! ### raise -/

@[simp] theorem raise_cfg (code : ResultCode) (s : State) : (raise code s).cfg = s.cfg := rfl
@[simp] theorem raise_remote (code : ResultCode) (s : State) : (raise code s).remote = s.remote := rfl
@[simp] theorem raise_latch (code : ResultCode) (s : State) : (raise code s).latch = s.latch := rfl
@[simp] theorem raise_tx (code : ResultCode) (s : State) : (raise code s).tx = { s.tx with phase := .idle } := rfl
@[simp] theorem raise_txOut (code : ResultCode) (s : State) : (raise code s).txOut = s.txOut := rfl
@[simp] theorem raise_status (code : ResultCode) (s : State) : (raise code s).status = { busy := false, done := true, result := code } := rfl
@[simp] theorem raise_activity (code : ResultCode) (s : State) : (raise code s).activity = .idle := rfl
@[simp] theorem raise_trace (code : ResultCode) (s : State) : (raise code s).trace = s.trace := rfl
@[simp] theorem raise_now (code : ResultCode) (s : State) : (raise code s).now = s.now := rfl
@[simp] theorem raise_store (code : ResultCode) (s : State) : (raise code s).store = s.store := rfl
@[simp] theorem raise_ports (code : ResultCode) (s : State) : (raise code s).ports = { s.ports with rsp := some { result := code, frame := none } } := rfl
@[simp] theorem raise_env (code : ResultCode) (s : State) : (raise code s).env = s.env := rfl
@[simp] theorem raise_draws (code : ResultCode) (s : State) : (raise code s).draws = s.draws := rfl

/-! ### withLineAnswers -/

@[simp] theorem withLineAnswers_cfg (as : List LineAnswer) (s : State) : (s.withLineAnswers as).cfg = s.cfg := rfl
@[simp] theorem withLineAnswers_remote (as : List LineAnswer) (s : State) : (s.withLineAnswers as).remote = s.remote := rfl
@[simp] theorem withLineAnswers_latch (as : List LineAnswer) (s : State) : (s.withLineAnswers as).latch = s.latch := rfl
@[simp] theorem withLineAnswers_tx (as : List LineAnswer) (s : State) : (s.withLineAnswers as).tx = s.tx := rfl
@[simp] theorem withLineAnswers_txOut (as : List LineAnswer) (s : State) : (s.withLineAnswers as).txOut = s.txOut := rfl
@[simp] theorem withLineAnswers_status (as : List LineAnswer) (s : State) : (s.withLineAnswers as).status = s.status := rfl
@[simp] theorem withLineAnswers_activity (as : List LineAnswer) (s : State) : (s.withLineAnswers as).activity = s.activity := rfl
@[simp] theorem withLineAnswers_trace (as : List LineAnswer) (s : State) : (s.withLineAnswers as).trace = s.trace := rfl
@[simp] theorem withLineAnswers_now (as : List LineAnswer) (s : State) : (s.withLineAnswers as).now = s.now := rfl
@[simp] theorem withLineAnswers_store (as : List LineAnswer) (s : State) : (s.withLineAnswers as).store = s.store := rfl
@[simp] theorem withLineAnswers_ports (as : List LineAnswer) (s : State) : (s.withLineAnswers as).ports = s.ports := rfl
@[simp] theorem withLineAnswers_env (as : List LineAnswer) (s : State) : (s.withLineAnswers as).env = { s.env with lineAnswers := as } := rfl
@[simp] theorem withLineAnswers_draws (as : List LineAnswer) (s : State) : (s.withLineAnswers as).draws = s.draws := rfl

/-! ### withStoreAnswers -/

@[simp] theorem withStoreAnswers_cfg (as : List StoreAnswer) (s : State) : (s.withStoreAnswers as).cfg = s.cfg := rfl
@[simp] theorem withStoreAnswers_remote (as : List StoreAnswer) (s : State) : (s.withStoreAnswers as).remote = s.remote := rfl
@[simp] theorem withStoreAnswers_latch (as : List StoreAnswer) (s : State) : (s.withStoreAnswers as).latch = s.latch := rfl
@[simp] theorem withStoreAnswers_tx (as : List StoreAnswer) (s : State) : (s.withStoreAnswers as).tx = s.tx := rfl
@[simp] theorem withStoreAnswers_txOut (as : List StoreAnswer) (s : State) : (s.withStoreAnswers as).txOut = s.txOut := rfl
@[simp] theorem withStoreAnswers_status (as : List StoreAnswer) (s : State) : (s.withStoreAnswers as).status = s.status := rfl
@[simp] theorem withStoreAnswers_activity (as : List StoreAnswer) (s : State) : (s.withStoreAnswers as).activity = s.activity := rfl
@[simp] theorem withStoreAnswers_trace (as : List StoreAnswer) (s : State) : (s.withStoreAnswers as).trace = s.trace := rfl
@[simp] theorem withStoreAnswers_now (as : List StoreAnswer) (s : State) : (s.withStoreAnswers as).now = s.now := rfl
@[simp] theorem withStoreAnswers_store (as : List StoreAnswer) (s : State) : (s.withStoreAnswers as).store = s.store := rfl
@[simp] theorem withStoreAnswers_ports (as : List StoreAnswer) (s : State) : (s.withStoreAnswers as).ports = s.ports := rfl
@[simp] theorem withStoreAnswers_env (as : List StoreAnswer) (s : State) : (s.withStoreAnswers as).env = { s.env with storeAnswers := as } := rfl
@[simp] theorem withStoreAnswers_draws (as : List StoreAnswer) (s : State) : (s.withStoreAnswers as).draws = s.draws := rfl

/-! ### withPending -/

@[simp] theorem withPending_cfg (ws : List PortWord) (s : State) : (s.withPending ws).cfg = s.cfg := rfl
@[simp] theorem withPending_remote (ws : List PortWord) (s : State) : (s.withPending ws).remote = s.remote := rfl
@[simp] theorem withPending_latch (ws : List PortWord) (s : State) : (s.withPending ws).latch = s.latch := rfl
@[simp] theorem withPending_tx (ws : List PortWord) (s : State) : (s.withPending ws).tx = s.tx := rfl
@[simp] theorem withPending_txOut (ws : List PortWord) (s : State) : (s.withPending ws).txOut = s.txOut := rfl
@[simp] theorem withPending_status (ws : List PortWord) (s : State) : (s.withPending ws).status = s.status := rfl
@[simp] theorem withPending_activity (ws : List PortWord) (s : State) : (s.withPending ws).activity = s.activity := rfl
@[simp] theorem withPending_trace (ws : List PortWord) (s : State) : (s.withPending ws).trace = s.trace := rfl
@[simp] theorem withPending_now (ws : List PortWord) (s : State) : (s.withPending ws).now = s.now := rfl
@[simp] theorem withPending_store (ws : List PortWord) (s : State) : (s.withPending ws).store = s.store := rfl
@[simp] theorem withPending_ports (ws : List PortWord) (s : State) : (s.withPending ws).ports = s.ports := rfl
@[simp] theorem withPending_env (ws : List PortWord) (s : State) : (s.withPending ws).env = { s.env with pending := ws } := rfl
@[simp] theorem withPending_draws (ws : List PortWord) (s : State) : (s.withPending ws).draws = s.draws := rfl

/-! ### withInputs -/

@[simp] theorem withInputs_cfg (xs : List Input) (s : State) : (s.withInputs xs).cfg = s.cfg := rfl
@[simp] theorem withInputs_remote (xs : List Input) (s : State) : (s.withInputs xs).remote = s.remote := rfl
@[simp] theorem withInputs_latch (xs : List Input) (s : State) : (s.withInputs xs).latch = s.latch := rfl
@[simp] theorem withInputs_tx (xs : List Input) (s : State) : (s.withInputs xs).tx = s.tx := rfl
@[simp] theorem withInputs_txOut (xs : List Input) (s : State) : (s.withInputs xs).txOut = s.txOut := rfl
@[simp] theorem withInputs_status (xs : List Input) (s : State) : (s.withInputs xs).status = s.status := rfl
@[simp] theorem withInputs_activity (xs : List Input) (s : State) : (s.withInputs xs).activity = s.activity := rfl
@[simp] theorem withInputs_trace (xs : List Input) (s : State) : (s.withInputs xs).trace = s.trace := rfl
@[simp] theorem withInputs_now (xs : List Input) (s : State) : (s.withInputs xs).now = s.now := rfl
@[simp] theorem withInputs_store (xs : List Input) (s : State) : (s.withInputs xs).store = s.store := rfl
@[simp] theorem withInputs_ports (xs : List Input) (s : State) : (s.withInputs xs).ports = s.ports := rfl
@[simp] theorem withInputs_env (xs : List Input) (s : State) : (s.withInputs xs).env = { s.env with inputs := xs } := rfl
@[simp] theorem withInputs_draws (xs : List Input) (s : State) : (s.withInputs xs).draws = s.draws := rfl

/-! ### answerCore -/

@[simp] theorem answerCore_cfg (r : StoreStatus × List StoreEntry) (s : State) : (answerCore r s).cfg = s.cfg := rfl
@[simp] theorem answerCore_remote (r : StoreStatus × List StoreEntry) (s : State) : (answerCore r s).remote = s.remote := rfl
@[simp] theorem answerCore_latch (r : StoreStatus × List StoreEntry) (s : State) : (answerCore r s).latch = s.latch := rfl
@[simp] theorem answerCore_tx (r : StoreStatus × List StoreEntry) (s : State) : (answerCore r s).tx = s.tx := rfl
@[simp] theorem answerCore_txOut (r : StoreStatus × List StoreEntry) (s : State) : (answerCore r s).txOut = s.txOut := rfl
@[simp] theorem answerCore_status (r : StoreStatus × List StoreEntry) (s : State) : (answerCore r s).status = s.status := rfl
@[simp] theorem answerCore_activity (r : StoreStatus × List StoreEntry) (s : State) : (answerCore r s).activity = s.activity := rfl
@[simp] theorem answerCore_trace (r : StoreStatus × List StoreEntry) (s : State) : (answerCore r s).trace = s.trace := rfl
@[simp] theorem answerCore_now (r : StoreStatus × List StoreEntry) (s : State) : (answerCore r s).now = s.now := rfl
@[simp] theorem answerCore_store (r : StoreStatus × List StoreEntry) (s : State) : (answerCore r s).store = r.2 := rfl
@[simp] theorem answerCore_ports (r : StoreStatus × List StoreEntry) (s : State) : (answerCore r s).ports = { s.ports with storeRsp := some { status := r.1, table := none } } := rfl
@[simp] theorem answerCore_env (r : StoreStatus × List StoreEntry) (s : State) : (answerCore r s).env = s.env := rfl
@[simp] theorem answerCore_draws (r : StoreStatus × List StoreEntry) (s : State) : (answerCore r s).draws = s.draws := rfl

/-! ### answerHost -/

@[simp] theorem answerHost_cfg (rsp : StoreRsp) (table : List StoreEntry) (s : State) : (answerHost rsp table s).cfg = s.cfg := rfl
@[simp] theorem answerHost_remote (rsp : StoreRsp) (table : List StoreEntry) (s : State) : (answerHost rsp table s).remote = s.remote := rfl
@[simp] theorem answerHost_latch (rsp : StoreRsp) (table : List StoreEntry) (s : State) : (answerHost rsp table s).latch = s.latch := rfl
@[simp] theorem answerHost_tx (rsp : StoreRsp) (table : List StoreEntry) (s : State) : (answerHost rsp table s).tx = s.tx := rfl
@[simp] theorem answerHost_txOut (rsp : StoreRsp) (table : List StoreEntry) (s : State) : (answerHost rsp table s).txOut = s.txOut := rfl
@[simp] theorem answerHost_status (rsp : StoreRsp) (table : List StoreEntry) (s : State) : (answerHost rsp table s).status = s.status := rfl
@[simp] theorem answerHost_activity (rsp : StoreRsp) (table : List StoreEntry) (s : State) : (answerHost rsp table s).activity = s.activity := rfl
@[simp] theorem answerHost_trace (rsp : StoreRsp) (table : List StoreEntry) (s : State) : (answerHost rsp table s).trace = s.trace := rfl
@[simp] theorem answerHost_now (rsp : StoreRsp) (table : List StoreEntry) (s : State) : (answerHost rsp table s).now = s.now := rfl
@[simp] theorem answerHost_store (rsp : StoreRsp) (table : List StoreEntry) (s : State) : (answerHost rsp table s).store = table := rfl
@[simp] theorem answerHost_ports (rsp : StoreRsp) (table : List StoreEntry) (s : State) : (answerHost rsp table s).ports = { s.ports with hostStoreRsp := some rsp } := rfl
@[simp] theorem answerHost_env (rsp : StoreRsp) (table : List StoreEntry) (s : State) : (answerHost rsp table s).env = s.env := rfl
@[simp] theorem answerHost_draws (rsp : StoreRsp) (table : List StoreEntry) (s : State) : (answerHost rsp table s).draws = s.draws := rfl

/-! ### withHost -/

@[simp] theorem withHost_cfg (txns : List StoreTxn) (as : List StoreAnswer) (s : State) : (s.withHost txns as).cfg = s.cfg := rfl
@[simp] theorem withHost_remote (txns : List StoreTxn) (as : List StoreAnswer) (s : State) : (s.withHost txns as).remote = s.remote := rfl
@[simp] theorem withHost_latch (txns : List StoreTxn) (as : List StoreAnswer) (s : State) : (s.withHost txns as).latch = s.latch := rfl
@[simp] theorem withHost_tx (txns : List StoreTxn) (as : List StoreAnswer) (s : State) : (s.withHost txns as).tx = s.tx := rfl
@[simp] theorem withHost_txOut (txns : List StoreTxn) (as : List StoreAnswer) (s : State) : (s.withHost txns as).txOut = s.txOut := rfl
@[simp] theorem withHost_status (txns : List StoreTxn) (as : List StoreAnswer) (s : State) : (s.withHost txns as).status = s.status := rfl
@[simp] theorem withHost_activity (txns : List StoreTxn) (as : List StoreAnswer) (s : State) : (s.withHost txns as).activity = s.activity := rfl
@[simp] theorem withHost_trace (txns : List StoreTxn) (as : List StoreAnswer) (s : State) : (s.withHost txns as).trace = s.trace := rfl
@[simp] theorem withHost_now (txns : List StoreTxn) (as : List StoreAnswer) (s : State) : (s.withHost txns as).now = s.now := rfl
@[simp] theorem withHost_store (txns : List StoreTxn) (as : List StoreAnswer) (s : State) : (s.withHost txns as).store = s.store := rfl
@[simp] theorem withHost_ports (txns : List StoreTxn) (as : List StoreAnswer) (s : State) : (s.withHost txns as).ports = s.ports := rfl
@[simp] theorem withHost_env (txns : List StoreTxn) (as : List StoreAnswer) (s : State) : (s.withHost txns as).env = { s.env with hostTxns := txns, hostAnswers := as } := rfl
@[simp] theorem withHost_draws (txns : List StoreTxn) (as : List StoreAnswer) (s : State) : (s.withHost txns as).draws = s.draws := rfl

/-! ### clearPorts -/

@[simp] theorem clearPorts_cfg (s : State) : (clearPorts s).cfg = s.cfg := rfl
@[simp] theorem clearPorts_remote (s : State) : (clearPorts s).remote = s.remote := rfl
@[simp] theorem clearPorts_latch (s : State) : (clearPorts s).latch = s.latch := rfl
@[simp] theorem clearPorts_tx (s : State) : (clearPorts s).tx = s.tx := rfl
@[simp] theorem clearPorts_txOut (s : State) : (clearPorts s).txOut = s.txOut := rfl
@[simp] theorem clearPorts_status (s : State) : (clearPorts s).status = s.status := rfl
@[simp] theorem clearPorts_activity (s : State) : (clearPorts s).activity = s.activity := rfl
@[simp] theorem clearPorts_trace (s : State) : (clearPorts s).trace = s.trace := rfl
@[simp] theorem clearPorts_now (s : State) : (clearPorts s).now = s.now := rfl
@[simp] theorem clearPorts_store (s : State) : (clearPorts s).store = s.store := rfl
@[simp] theorem clearPorts_ports (s : State) : (clearPorts s).ports = Ports.quiet := rfl
@[simp] theorem clearPorts_env (s : State) : (clearPorts s).env = s.env := rfl
@[simp] theorem clearPorts_draws (s : State) : (clearPorts s).draws = s.draws := rfl

/-! ### advanceCode -/

@[simp] theorem advanceCode_cfg (s : State) : (advanceCode s).cfg = s.cfg := rfl
@[simp] theorem advanceCode_remote (s : State) : (advanceCode s).remote = { s.remote with rollingCode := s.remote.rollingCode + 1 } := rfl
@[simp] theorem advanceCode_latch (s : State) : (advanceCode s).latch = s.latch := rfl
@[simp] theorem advanceCode_tx (s : State) : (advanceCode s).tx = s.tx := rfl
@[simp] theorem advanceCode_txOut (s : State) : (advanceCode s).txOut = s.txOut := rfl
@[simp] theorem advanceCode_status (s : State) : (advanceCode s).status = s.status := rfl
@[simp] theorem advanceCode_activity (s : State) : (advanceCode s).activity = s.activity := rfl
@[simp] theorem advanceCode_trace (s : State) : (advanceCode s).trace = s.trace := rfl
@[simp] theorem advanceCode_now (s : State) : (advanceCode s).now = s.now := rfl
@[simp] theorem advanceCode_store (s : State) : (advanceCode s).store = s.store := rfl
@[simp] theorem advanceCode_ports (s : State) : (advanceCode s).ports = s.ports := rfl
@[simp] theorem advanceCode_env (s : State) : (advanceCode s).env = s.env := rfl
@[simp] theorem advanceCode_draws (s : State) : (advanceCode s).draws = s.draws := rfl

/-! ### setTx -/

@[simp] theorem setTx_cfg (p : TxPos) (s : State) : (s.setTx p).cfg = s.cfg := rfl
@[simp] theorem setTx_remote (p : TxPos) (s : State) : (s.setTx p).remote = s.remote := rfl
@[simp] theorem setTx_latch (p : TxPos) (s : State) : (s.setTx p).latch = s.latch := rfl
@[simp] theorem setTx_tx (p : TxPos) (s : State) : (s.setTx p).tx = p := rfl
@[simp] theorem setTx_txOut (p : TxPos) (s : State) : (s.setTx p).txOut = s.txOut := rfl
@[simp] theorem setTx_status (p : TxPos) (s : State) : (s.setTx p).status = s.status := rfl
@[simp] theorem setTx_activity (p : TxPos) (s : State) : (s.setTx p).activity = s.activity := rfl
@[simp] theorem setTx_trace (p : TxPos) (s : State) : (s.setTx p).trace = s.trace := rfl
@[simp] theorem setTx_now (p : TxPos) (s : State) : (s.setTx p).now = s.now := rfl
@[simp] theorem setTx_store (p : TxPos) (s : State) : (s.setTx p).store = s.store := rfl
@[simp] theorem setTx_ports (p : TxPos) (s : State) : (s.setTx p).ports = s.ports := rfl
@[simp] theorem setTx_env (p : TxPos) (s : State) : (s.setTx p).env = s.env := rfl
@[simp] theorem setTx_draws (p : TxPos) (s : State) : (s.setTx p).draws = s.draws := rfl

/-! ### One line operation -/

@[simp] theorem performOp_cfg (op : LineOp) (a : LineAnswer) (s : State) : (performOp op a s).cfg = s.cfg := by
  cases op <;> cases a <;> rfl

@[simp] theorem performOp_remote (op : LineOp) (a : LineAnswer) (s : State) : (performOp op a s).remote = s.remote := by
  cases op <;> cases a <;> rfl

@[simp] theorem performOp_latch (op : LineOp) (a : LineAnswer) (s : State) : (performOp op a s).latch = s.latch := by
  cases op <;> cases a <;> rfl

@[simp] theorem performOp_tx (op : LineOp) (a : LineAnswer) (s : State) : (performOp op a s).tx = s.tx := by
  cases op <;> cases a <;> rfl

@[simp] theorem performOp_status (op : LineOp) (a : LineAnswer) (s : State) : (performOp op a s).status = s.status := by
  cases op <;> cases a <;> rfl

@[simp] theorem performOp_activity (op : LineOp) (a : LineAnswer) (s : State) : (performOp op a s).activity = s.activity := by
  cases op <;> cases a <;> rfl

@[simp] theorem performOp_store (op : LineOp) (a : LineAnswer) (s : State) : (performOp op a s).store = s.store := by
  cases op <;> cases a <;> rfl

@[simp] theorem performOp_ports (op : LineOp) (a : LineAnswer) (s : State) : (performOp op a s).ports = s.ports := by
  cases op <;> cases a <;> rfl

@[simp] theorem performOp_env (op : LineOp) (a : LineAnswer) (s : State) : (performOp op a s).env = s.env := by
  cases op <;> cases a <;> rfl

@[simp] theorem performOp_draws (op : LineOp) (a : LineAnswer) (s : State) : (performOp op a s).draws = s.draws := by
  cases op <;> cases a <;> rfl

@[simp] theorem performOp_trace (op : LineOp) (a : LineAnswer) (s : State) :
    (performOp op a s).trace = s.trace ++ [op.entry a.isOk] := by
  cases op <;> cases a <;> rfl

theorem performOp_ok_txOut (op : LineOp) (s : State) : (performOp op .ok s).txOut = levelAfter s.txOut [op] := by
  cases op <;> rfl

theorem performOp_ok_now (op : LineOp) (s : State) : (performOp op .ok s).now = s.now + op.time := by
  cases op <;> rfl

/-- One line operation touches the level, the time and the trace alone, and does not look at the rest. -/
theorem performOp_withLineAnswers (op : LineOp) (a : LineAnswer) (s : State) (as : List LineAnswer) :
    performOp op a (s.withLineAnswers as) = (performOp op a s).withLineAnswers as := by
  cases op <;> cases a <;> rfl

@[simp] theorem withLineAnswers_twice (s : State) (as bs : List LineAnswer) :
    (s.withLineAnswers as).withLineAnswers bs = s.withLineAnswers bs := rfl

@[simp] theorem withLineAnswers_self (s : State) : s.withLineAnswers s.env.lineAnswers = s := rfl

end Sys2Proof.Machine
end

