-- ==== Sys2Proof/Laws/Store.lean ====
section
/-!
SUPPORT. What the operations on the store can do: an overwrite keeps the form of the table, and a PERSIST overwrites one
entry or leaves the table.
-/

namespace Sys2Proof.Machine

namespace Store

/-- Well-formedness, spelled out (R51). -/
theorem wf_iff (table : List StoreEntry) :
    wf table = true ↔ (table.map StoreEntry.name).Nodup ∧ (table.map StoreEntry.address).Nodup := by
  simp [wf]

@[simp] theorem overwrite_map_name (addr : Addr) (rc : Code) (table : List StoreEntry) :
    (overwrite addr rc table).map StoreEntry.name = table.map StoreEntry.name := by
  simp only [overwrite, List.map_map]
  apply List.map_congr_left
  intro e _
  simp only [Function.comp]
  split <;> rfl

@[simp] theorem overwrite_map_address (addr : Addr) (rc : Code) (table : List StoreEntry) :
    (overwrite addr rc table).map StoreEntry.address = table.map StoreEntry.address := by
  simp only [overwrite, List.map_map]
  apply List.map_congr_left
  intro e _
  simp only [Function.comp]
  split <;> rfl

/-- Every overwrite keeps the form (R51). -/
@[simp] theorem overwrite_wf (addr : Addr) (rc : Code) (table : List StoreEntry) :
    wf (overwrite addr rc table) = wf table := by
  simp [wf]

/-- A read after a write to the same address. -/
theorem lookup_overwrite_self (addr : Addr) (rc : Code) (table : List StoreEntry) :
    lookup addr (overwrite addr rc table) = (lookup addr table).map (fun e => { e with rollingCode := rc }) := by
  induction table with
  | nil => rfl
  | cons e table ih =>
    simp only [lookup, overwrite, List.map_cons, List.find?_cons] at ih ⊢
    by_cases h : e.address = addr
    · simp [h]
    · have hb : (e.address == addr) = false := by simpa using h
      simp only [h, if_false, hb]
      exact ih

/-- A read after a write to another address. -/
theorem lookup_overwrite_other (addr other : Addr) (rc : Code) (table : List StoreEntry) (h : other ≠ addr) :
    lookup other (overwrite addr rc table) = lookup other table := by
  induction table with
  | nil => rfl
  | cons e table ih =>
    simp only [lookup, overwrite, List.map_cons, List.find?_cons] at ih ⊢
    by_cases ha : e.address = addr
    · have hb : (addr == other) = false := by simpa using h.symm
      simp only [ha, if_true, hb]
      exact ih
    · simp only [ha, if_false]
      split
      · rfl
      · exact ih

/-- With no entry of the address an overwrite changes nothing (R203). -/
theorem overwrite_of_lookup_none (addr : Addr) (rc : Code) (table : List StoreEntry) (h : lookup addr table = none) :
    overwrite addr rc table = table := by
  have : ∀ e ∈ table, (if e.address = addr then { e with rollingCode := rc } else e) = e := by
    intro e he
    have := List.find?_eq_none.1 h e he
    simp_all
  simp only [overwrite]
  rw [List.map_congr_left this, List.map_id']

end Store

/-- Everything PERSIST can do to the table: it stays, or is overwritten; success is an overwrite of an entry that is there,
"no entry" leaves the table and has none (R202 to R204). -/
theorem Store.persist_cases (addr : Addr) (rc : Code) (a : StoreAnswer) (table : List StoreEntry) :
    ((Store.persist addr rc a table).2 = table ∨ (Store.persist addr rc a table).2 = Store.overwrite addr rc table)
      ∧ ((Store.persist addr rc a table).1 = .success →
          (Store.persist addr rc a table).2 = Store.overwrite addr rc table ∧ ∃ e, Store.lookup addr table = some e)
      ∧ ((Store.persist addr rc a table).1 = .noEntry →
          (Store.persist addr rc a table).2 = table ∧ Store.lookup addr table = none) := by
  unfold Store.persist
  cases Store.lookup addr table with
  | none => simp
  | some e => cases a <;> simp

/-- PERSIST keeps the form of the table (R51). -/
theorem Store.persist_wf (addr : Addr) (rc : Code) (a : StoreAnswer) (table : List StoreEntry) :
    Store.wf (Store.persist addr rc a table).2 = Store.wf table := by
  rcases (Store.persist_cases addr rc a table).1 with h | h <;> simp [h]

theorem Store.persist_of_none {addr : Addr} {table : List StoreEntry} (h : Store.lookup addr table = none) (rc : Code)
    (a : StoreAnswer) : Store.persist addr rc a table = (.noEntry, table) := by
  simp [Store.persist, h]

theorem Store.persist_ok {addr : Addr} {table : List StoreEntry} {e : StoreEntry} (h : Store.lookup addr table = some e)
    (rc : Code) : Store.persist addr rc .ok table = (.success, Store.overwrite addr rc table) := by
  simp [Store.persist, h]

theorem Store.persist_fails {addr : Addr} {table : List StoreEntry} {e : StoreEntry} (h : Store.lookup addr table = some e)
    (rc : Code) {a : StoreAnswer} (ha : a ≠ .ok) :
    Store.persist addr rc a table
      = (.ioFailure, if a = .failKept then table else Store.overwrite addr rc table) := by
  cases a <;> simp_all [Store.persist]

end Sys2Proof.Machine
end

