-- ==== Sys2Proof/Laws/Transmitter.lean ====
section
/-!
SUPPORT. What the line operations and the transmit loop can do: the list form in closed form, and the position register as
a walk over a list of operations.
-/

namespace Sys2Proof.Machine

/-! ### Small facts about traces, levels and durations -/

@[simp] theorem okTrace_nil : okTrace [] = [] := rfl

@[simp] theorem okTrace_cons (op : LineOp) (ops : List LineOp) : okTrace (op :: ops) = op.entry true :: okTrace ops := rfl

@[simp] theorem okTrace_append (xs ys : List LineOp) : okTrace (xs ++ ys) = okTrace xs ++ okTrace ys := by
  simp [okTrace]

@[simp] theorem duration_nil : duration [] = 0 := rfl

@[simp] theorem duration_cons (op : LineOp) (ops : List LineOp) : duration (op :: ops) = op.time + duration ops := rfl

@[simp] theorem duration_append (xs ys : List LineOp) : duration (xs ++ ys) = duration xs + duration ys := by
  simp [duration]

@[simp] theorem levelAfter_nil (l : Level) : levelAfter l [] = l := rfl

theorem levelAfter_cons (l : Level) (op : LineOp) (ops : List LineOp) :
    levelAfter l (op :: ops) = levelAfter (levelAfter l [op]) ops := rfl

theorem levelAfter_append (l : Level) (xs ys : List LineOp) :
    levelAfter l (xs ++ ys) = levelAfter (levelAfter l xs) ys := by
  simp [levelAfter, List.foldl_append]

/-! ### The list form in closed form -/

/-- The state after a list of operations that all succeeded, with the answers left over. -/
def afterOk (ops : List LineOp) (rest : List LineAnswer) (s : State) : State :=
  { s with
    txOut := levelAfter s.txOut ops
    trace := s.trace ++ okTrace ops
    now := s.now + duration ops
    env := { s.env with lineAnswers := rest } }

theorem afterOk_cons (op : LineOp) (ops : List LineOp) (as rest : List LineAnswer) (s : State) :
    afterOk ops rest (performOp op .ok (s.withLineAnswers as)) = afterOk (op :: ops) rest s := by
  cases op <;> simp [afterOk, performOp, State.withLineAnswers, levelAfter, LineOp.entry, LineOp.time, Nat.add_assoc]

/-- Every operation answered with success: the list is performed whole. -/
theorem performOps_all_ok (ops : List LineOp) (rest : List LineAnswer) (s : State)
    (h : s.env.lineAnswers = allOk ops.length ++ rest) : performOps ops s = .done (afterOk ops rest s) := by
  induction ops generalizing s with
  | nil => simp [allOk] at h; simp [performOps, afterOk, ← h]
  | cons op ops ih =>
    simp only [allOk, List.length_cons, List.replicate_succ, List.cons_append] at h
    simp only [performOps, h, LineAnswer.isOk, if_true]
    rw [ih _ (by simp [allOk]), afterOk_cons]

/-- A failure at operation `j` ends the list there. -/
theorem performOps_fails (ops : List LineOp) (j : Nat) (op : LineOp) (reached : Bool) (spent : Nat)
    (rest : List LineAnswer) (s : State) (hop : ops[j]? = some op)
    (h : s.env.lineAnswers = allOk j ++ .fail reached spent :: rest) :
    performOps ops s = .failed (performOp op (.fail reached spent) (afterOk (ops.take j) rest s)) := by
  induction j generalizing ops s with
  | zero =>
    cases ops with
    | nil => simp at hop
    | cons x xs =>
      simp only [List.getElem?_cons_zero, Option.some.injEq] at hop
      subst hop
      simp only [allOk, List.replicate_zero, List.nil_append] at h
      simp only [performOps, h, LineAnswer.isOk, Bool.false_eq_true, if_false]
      simp [afterOk, State.withLineAnswers]
  | succ j ih =>
    cases ops with
    | nil => simp at hop
    | cons x xs =>
      simp only [List.getElem?_cons_succ] at hop
      simp only [allOk, List.replicate_succ, List.cons_append] at h
      simp only [performOps, h, LineAnswer.isOk, if_true, List.take_succ_cons]
      rw [ih xs _ hop (by simp [allOk]), afterOk_cons]

/-- Fewer answers than operations: the list waits at the first operation without one. -/
theorem performOps_waits (ops : List LineOp) (j : Nat) (s : State) (hj : j < ops.length)
    (h : s.env.lineAnswers = allOk j) :
    performOps ops s = .waiting (ops.drop j) (afterOk (ops.take j) [] s) := by
  induction j generalizing ops s with
  | zero =>
    cases ops with
    | nil => simp at hj
    | cons x xs =>
      simp only [allOk, List.replicate_zero] at h
      simp [performOps, h, afterOk]
      simp [← h]
  | succ j ih =>
    cases ops with
    | nil => simp at hj
    | cons x xs =>
      simp only [allOk, List.replicate_succ] at h
      simp only [performOps, h, LineAnswer.isOk, if_true, List.take_succ_cons, List.drop_succ_cons]
      rw [ih xs _ (by simpa using hj) (by simp [allOk]), afterOk_cons]

/-! ### The position register as a walk -/

/-- From position `p` the operations `ops` are the ones named next, and after them the position is `q` (`none` for
`IDLE`). -/
inductive Walk (c : Config) (f : Frame) (reps : Nat) : TxPos → List LineOp → Option TxPos → Prop where
  | stay (p : TxPos) : Walk c f reps p [] (some p)
  | last (p : TxPos) (op : LineOp) (h : opAt c f p = some op) (n : nextPos c reps p = none) :
      Walk c f reps p [op] none
  | go (p p' : TxPos) (op : LineOp) (ops : List LineOp) (q : Option TxPos) (h : opAt c f p = some op)
      (n : nextPos c reps p = some p') (w : Walk c f reps p' ops q) : Walk c f reps p (op :: ops) q

theorem Walk.append {c : Config} {f : Frame} {reps : Nat} {p p' : TxPos} {xs ys : List LineOp} {q : Option TxPos}
    (hx : Walk c f reps p xs (some p')) (hy : Walk c f reps p' ys q) : Walk c f reps p (xs ++ ys) q := by
  generalize hr : some p' = r at hx
  induction hx with
  | stay p => cases hr; exact hy
  | last => cases hr
  | go p p1 op ops q h n w ih => exact .go p p1 op (ops ++ ys) _ h n (ih hr)

/-- The two operations of one pulse. -/
theorem Walk.pulse {c : Config} {f : Frame} {reps k i : Nat} {ph : Phase} {half : Bool} {level : Level} {us : Nat}
    {p' : TxPos} (hl : levelDur c f ⟨k, ph, i, half, false⟩ = some (level, us))
    (hn : nextPos c reps ⟨k, ph, i, half, true⟩ = some p') :
    Walk c f reps ⟨k, ph, i, half, false⟩ (pulse level us) (some p') := by
  have hl' : levelDur c f ⟨k, ph, i, half, true⟩ = some (level, us) := by rw [← hl]; rfl
  refine .go _ ⟨k, ph, i, half, true⟩ _ _ _ (by simp [opAt, hl]) ?_
    (.go _ p' _ _ _ (by simp [opAt, hl']) hn (.stay _))
  cases ph <;> simp_all [nextPos, levelDur]

/-- The sync pairs from pair `i` on. -/
theorem walk_hwsync (c : Config) (f : Frame) (reps k m i : Nat) (h : i + (m + 1) = npairs c k) :
    Walk c f reps ⟨k, .hwsync, i, false, false⟩ (hwsyncOps c (m + 1)) (some ⟨k, .swsync, 0, false, false⟩) := by
  induction m generalizing i with
  | zero =>
    have : hwsyncOps c (0 + 1) = pulse true c.tHwsync ++ pulse false c.tHwsync := by simp [hwsyncOps]
    rw [this]
    refine .append (.pulse (p' := ⟨k, .hwsync, i, true, false⟩) rfl rfl) (.pulse rfl ?_)
    simp [nextPos, show ¬ i + 1 < npairs c k by omega]
  | succ m ih =>
    have : hwsyncOps c (m + 1 + 1) = (pulse true c.tHwsync ++ pulse false c.tHwsync) ++ hwsyncOps c (m + 1) := by
      simp [hwsyncOps, List.replicate_succ]
    rw [this]
    refine .append (.append (.pulse (p' := ⟨k, .hwsync, i, true, false⟩) rfl rfl)
      (.pulse (p' := ⟨k, .hwsync, i + 1, false, false⟩) rfl ?_)) (ih (i + 1) (by omega))
    simp [nextPos, show i + 1 < npairs c k by omega]

/-- The data bits from bit `i` on. -/
theorem walk_payload (c : Config) (f : Frame) (reps k m i : Nat) (h : i + (m + 1) = 56) :
    Walk c f reps ⟨k, .payload, i, false, false⟩
      (((List.range' i (m + 1)).map (fun n => bitOps c (f.dataBit n))).flatten) (some ⟨k, .gap, 0, false, false⟩) := by
  induction m generalizing i with
  | zero =>
    simp only [Nat.zero_add, List.range'_one, List.map_cons, List.map_nil, List.flatten_cons, List.flatten_nil,
      List.append_nil, bitOps]
    refine .append (.pulse (p' := ⟨k, .payload, i, true, false⟩) rfl rfl) (.pulse rfl ?_)
    simp [nextPos, show ¬ i < 55 by omega]
  | succ m ih =>
    rw [List.range'_succ, List.map_cons, List.flatten_cons]
    refine .append ?_ (ih (i + 1) (by omega))
    refine .append (.pulse (p' := ⟨k, .payload, i, true, false⟩) rfl rfl) (.pulse rfl ?_)
    simp [nextPos, show i < 55 by omega]

/-- An outcome of the list form, seen at another position. -/
def LineOutcome.setTx (p : TxPos) : LineOutcome → LineOutcome
  | .done u => .done (u.setTx p)
  | .failed u => .failed (u.setTx p)
  | .waiting left u => .waiting left (u.setTx p)

theorem performOp_setTx (op : LineOp) (a : LineAnswer) (s : State) (p : TxPos) :
    performOp op a (s.setTx p) = (performOp op a s).setTx p := by
  cases op <;> cases a <;> rfl

/-- The list form does not look at the position. -/
theorem performOps_setTx (ops : List LineOp) (s : State) (p : TxPos) :
    performOps ops (s.setTx p) = (performOps ops s).setTx p := by
  induction ops generalizing s with
  | nil => rfl
  | cons op ops ih =>
    rcases h : s.env.lineAnswers with _ | ⟨a, as⟩
    · simp [performOps, h, State.setTx, LineOutcome.setTx]
    · have e : (s.setTx p).withLineAnswers as = (s.withLineAnswers as).setTx p := rfl
      have hs : (s.setTx p).env.lineAnswers = a :: as := h
      cases a with
      | ok =>
        simp only [performOps, h, hs, LineAnswer.isOk, if_true, e, performOp_setTx, ih]
      | fail r sp =>
        simp only [performOps, h, hs, LineAnswer.isOk, Bool.false_eq_true, if_false, e, performOp_setTx, LineOutcome.setTx]

/-- What the transmit loop does is what the list form does on the operations of the walk, but for the position. -/
theorem txRun_of_walk (c : Config) (f : Frame) (reps : Nat) (p : TxPos) (ops : List LineOp)
    (w : Walk c f reps p ops none) (as : List LineAnswer) (s : State) (hc : s.cfg = c) (hf : s.latch.frame = f)
    (hr : s.latch.reps = reps) (hp : s.tx = p) :
    match performOps ops (s.withLineAnswers as) with
    | .done u => ∃ t, txRun as s = .done t ∧ t.tx.phase = .idle ∧ forgetPos t = forgetPos u
    | .failed u => ∃ t, txRun as s = .failed t ∧ forgetPos t = forgetPos u
    | .waiting left u => ∃ t, txRun as s = .waiting t ∧ forgetPos t = forgetPos u ∧ Walk c f reps t.tx left none := by
  generalize hq : (none : Option TxPos) = q at w
  induction w generalizing as s with
  | stay => cases hq
  | last p op h n =>
    subst hc hf hr hp
    cases as with
    | nil => exact ⟨_, rfl, rfl, .last _ _ h n⟩
    | cons a as =>
      cases a with
      | ok =>
        simp only [performOps, withLineAnswers_env, LineAnswer.isOk, if_true, txRun, h, n]
        exact ⟨_, rfl, rfl, by simp [forgetPos, performOp_withLineAnswers]⟩
      | fail r sp =>
        simp only [performOps, withLineAnswers_env, LineAnswer.isOk, Bool.false_eq_true, if_false, txRun, h]
        exact ⟨_, rfl, rfl⟩
  | go p p' op ops q h n w ih =>
    subst hq
    subst hc hf hr hp
    cases as with
    | nil => exact ⟨_, rfl, rfl, .go _ _ _ _ _ h n w⟩
    | cons a as =>
      cases a with
      | ok =>
        simp only [performOps, withLineAnswers_env, LineAnswer.isOk, if_true, txRun, h, n]
        have key := ih as ((performOp op .ok s).setTx p') (by simp) (by simp) (by simp) rfl rfl
        rw [show ((performOp op .ok s).setTx p').withLineAnswers as
            = (performOp op .ok (s.withLineAnswers as)).setTx p' by rw [performOp_withLineAnswers]; rfl,
          performOps_setTx] at key
        rw [withLineAnswers_twice]
        cases h : performOps ops (performOp op .ok (s.withLineAnswers as)) <;> rw [h] at key <;> exact key
      | fail r sp =>
        simp only [performOps, withLineAnswers_env, LineAnswer.isOk, Bool.false_eq_true, if_false, txRun, h]
        exact ⟨_, rfl, rfl⟩

/-- One frame from its hardware sync to its gap. -/
theorem walk_frame (c : Config) (f : Frame) (reps k : Nat) (hv : c.valid = true) :
    Walk c f reps ⟨k, .hwsync, 0, false, false⟩
      (hwsyncOps c (npairs c k) ++ swsyncOps c ++ payloadOps c f) (some ⟨k, .gap, 0, false, false⟩) := by
  have hn : 1 ≤ npairs c k := by
    simp only [Config.valid, Bool.and_eq_true, decide_eq_true_eq] at hv
    unfold npairs; split <;> omega
  obtain ⟨m, hm⟩ : ∃ m, npairs c k = m + 1 := ⟨npairs c k - 1, by omega⟩
  have sync : Walk c f reps ⟨k, .swsync, 0, false, false⟩ (swsyncOps c) (some ⟨k, .payload, 0, false, false⟩) :=
    Walk.append (p' := ⟨k, .swsync, 0, true, false⟩) (Walk.pulse rfl rfl) (Walk.pulse rfl rfl)
  refine .append (.append ?_ sync) ?_
  · rw [hm]; exact walk_hwsync c f reps k m 0 (by omega)
  · simpa [payloadOps, List.range_eq_range'] using walk_payload c f reps k 55 0 rfl

/-- Frames `k` to `reps` of a send, the wake-up apart. -/
theorem walk_tail (c f reps) (hv : c.valid = true) (m k : Nat) (h : k + m = reps) :
    Walk c f reps ⟨k, .hwsync, 0, false, false⟩
      (((List.range' k (m+1)).map (fun k => hwsyncOps c (npairs c k) ++ swsyncOps c ++ payloadOps c f ++ gapOps c)).flatten) none := by
  induction m generalizing k with
  | zero =>
    simp only [Nat.zero_add, List.range'_one, List.map_cons, List.map_nil, List.flatten_cons, List.flatten_nil, List.append_nil]
    refine .append (walk_frame c f reps k hv) ?_
    refine .go _ ⟨k, .gap, 0, false, true⟩ _ _ _ rfl rfl (.last _ _ rfl ?_)
    simp [nextPos]; omega
  | succ m ih =>
    rw [List.range'_succ, List.map_cons, List.flatten_cons]
    refine .append (.append (walk_frame c f reps k hv) (.pulse rfl (p' := ⟨k+1, .hwsync, 0, false, false⟩) ?_)) (ih (k+1) (by omega))
    simp [nextPos]; omega

/-- The whole of a send, from the first position to `IDLE`. -/
theorem walk_send (c f reps) (hv : c.valid = true) : Walk c f reps TxPos.start (sendOps c f reps) none := by
  have e : sendOps c f reps = wakeupOps c ++ ((List.range' 0 (reps+1)).map (fun k => hwsyncOps c (npairs c k) ++ swsyncOps c ++ payloadOps c f ++ gapOps c)).flatten := by
    simp only [sendOps, List.range_eq_range', List.range'_succ, List.map_cons, List.flatten_cons, frameOps, if_true, List.append_assoc]
    congr 6
    apply List.map_congr_left
    intro k hk
    have : k ≠ 0 := by simp at hk; omega
    simp [frameOps, this]
  rw [e]
  refine .append (.append (p' := ⟨0, .wakeup, 0, true, false⟩) (.pulse rfl rfl) (.pulse (p' := ⟨0, .hwsync, 0, false, false⟩) rfl rfl)) (walk_tail c f reps hv reps 0 (by omega))

/-- A walk's positions, counted from the start of the send. -/
theorem walk_pos (c f reps) (p ops q) (w : Walk c f reps p ops q) (m : Nat) (hm : posAfter c reps m = some p) :
    (∀ n, n < ops.length → ∃ p', posAfter c reps (m + n) = some p' ∧ opAt c f p' = ops[n]?) ∧ posAfter c reps (m + ops.length) = q := by
  induction w generalizing m with
  | stay p => exact ⟨by simp, hm⟩
  | last p op h n => 
    refine ⟨?_, ?_⟩
    · intro k hk; simp at hk; subst hk; exact ⟨p, hm, h⟩
    · simp [posAfter, hm, n]
  | go p p' op ops q h n w ih =>
    have hm' : posAfter c reps (m+1) = some p' := by simp [posAfter, hm, n]
    obtain ⟨h1, h2⟩ := ih (m+1) hm'
    refine ⟨?_, ?_⟩
    · intro k hk
      cases k with
      | zero => exact ⟨p, hm, h⟩
      | succ k =>
        obtain ⟨p2, a, b⟩ := h1 k (by simpa using hk)
        exact ⟨p2, by rw [← a]; congr 1; omega, by simpa using b⟩
    · rw [← h2]; congr 1; simp; omega

/-- The transmit step against the list form. -/
theorem tx_start (s : State) (c f reps) (hv : c.valid = true) (hc : s.cfg = c) (hf : s.latch.frame = f) (hr : s.latch.reps = reps) (hp : s.tx = TxPos.start) :
    match performOps (sendOps c f reps) s with
    | .done u => ∃ t, transmit s = .done t ∧ t.tx.phase = .idle ∧ forgetPos t = forgetPos u
    | .failed u => ∃ t, transmit s = .failed t ∧ forgetPos t = forgetPos u
    | .waiting left u => ∃ t, transmit s = .waiting t ∧ forgetPos t = forgetPos u ∧ Walk c f reps t.tx left none :=
  txRun_of_walk c f reps _ _ (walk_send c f reps hv) s.env.lineAnswers s hc hf hr hp

/-- States equal but for the position. -/
theorem forget_eq {s t : State} (h : forgetPos s = forgetPos t) : t = s.setTx t.tx := by
  cases s; cases t; simp [forgetPos, State.setTx] at h ⊢; simp_all

/-- The transmit step with a success for every operation. -/
theorem tx_all (s : State) (hv : s.cfg.valid = true) (hp : s.tx = TxPos.start) (rest)
    (h : s.env.lineAnswers = allOk (sendOps s.cfg s.latch.frame s.latch.reps).length ++ rest) :
    ∃ p : TxPos, p.phase = .idle ∧ transmit s = .done ((afterOk (sendOps s.cfg s.latch.frame s.latch.reps) rest s).setTx p) := by
  have key := tx_start s _ _ _ hv rfl rfl rfl hp
  rw [performOps_all_ok _ rest s h] at key
  obtain ⟨t, e, hi, k⟩ := key
  refine ⟨t.tx, hi, ?_⟩
  rw [e, ← forget_eq k.symm]

/-- The transmit step with a failure at operation `j`. -/
theorem tx_fail (s : State) (hv : s.cfg.valid = true) (hp : s.tx = TxPos.start) (j op r sp rest)
    (hop : (sendOps s.cfg s.latch.frame s.latch.reps)[j]? = some op)
    (h : s.env.lineAnswers = allOk j ++ .fail r sp :: rest) :
    ∃ p : TxPos, transmit s = .failed ((performOp op (.fail r sp) (afterOk ((sendOps s.cfg s.latch.frame s.latch.reps).take j) rest s)).setTx p) := by
  have key := tx_start s _ _ _ hv rfl rfl rfl hp
  rw [performOps_fails _ j op r sp rest s hop h] at key
  obtain ⟨t, e, k⟩ := key
  exact ⟨t.tx, by rw [e, ← forget_eq k.symm]⟩

/-- The transmit step with `j` successes and no more answers. -/
theorem tx_wait (s : State) (hv : s.cfg.valid = true) (hp : s.tx = TxPos.start) (j)
    (hj : j < (sendOps s.cfg s.latch.frame s.latch.reps).length)
    (h : s.env.lineAnswers = allOk j) :
    ∃ p : TxPos, transmit s = .waiting ((afterOk ((sendOps s.cfg s.latch.frame s.latch.reps).take j) [] s).setTx p) ∧
     Walk s.cfg s.latch.frame s.latch.reps p ((sendOps s.cfg s.latch.frame s.latch.reps).drop j) none := by
  have key := tx_start s _ _ _ hv rfl rfl rfl hp
  rw [performOps_waits _ j s hj h] at key
  obtain ⟨t, e, k, w⟩ := key
  exact ⟨t.tx, by rw [e, ← forget_eq k.symm], w⟩

/-- A send ends with the line low (R158). -/
theorem level_send (l : Level) (c f reps) : levelAfter l (sendOps c f reps) = false := by
  cases reps with
  | zero => simp [sendOps, frameOps, gapOps, pulse, ← List.append_assoc]; simp [levelAfter_append, levelAfter]
  | succ r =>
    have e : sendOps c f (r+1) = sendOps c f r ++ frameOps c f (r+1) := by
      simp [sendOps, List.range_succ]
    rw [e]
    simp [frameOps, gapOps, pulse, ← List.append_assoc]; simp [levelAfter_append, levelAfter]

/-- The position after `j` more successes. -/
theorem txRun_pos (j m : Nat) (s t : State) (hm : posAfter s.cfg s.latch.reps m = some s.tx)
    (h : txRun (allOk j) s = .waiting t) : posAfter s.cfg s.latch.reps (m + j) = some t.tx := by
  induction j generalizing m s with
  | zero => simp [allOk, txRun] at h; subst h; exact hm
  | succ j ih =>
    simp only [allOk, List.replicate_succ, txRun] at h
    split at h
    · cases h
    · simp only [LineAnswer.isOk, if_true] at h
      split at h
      · cases h
      · rename_i p hp
        have := ih (m+1) ((performOp _ .ok s).setTx p) (by simp [posAfter, hm, hp]) h
        simp at this; rw [← this]; congr 1; omega

/-- The loop does not look at the answers the state still lists. -/
theorem txRun_withLineAnswers (as xs : List LineAnswer) (s : State) : txRun as (s.withLineAnswers xs) = txRun as s := by
  induction as generalizing s xs with
  | nil => rfl
  | cons a as ih =>
    simp only [txRun, withLineAnswers_cfg, withLineAnswers_latch, withLineAnswers_tx]
    split
    · rfl
    · split
      · split
        · rfl
        · rename_i _ op _ _ _ p _
          rw [performOp_withLineAnswers]
          exact ih xs ((performOp op a s).setTx p)
      · rfl

/-- Answers that come later are used as if they had been there. -/
theorem txRun_append (as bs : List LineAnswer) (s t : State) (h : txRun as s = .waiting t) :
    txRun (as ++ bs) s = txRun bs t := by
  induction as generalizing s with
  | nil =>
    simp only [txRun, TxOutcome.waiting.injEq] at h; subst h
    exact (txRun_withLineAnswers bs [] s).symm
  | cons a as ih =>
    simp only [List.cons_append, txRun] at h ⊢
    split at h
    · cases h
    · rename_i op hop
      split at h
      · rename_i hok
        split at h
        · cases h
        · rename_i p hp
          simp only [hok, if_true]
          exact ih _ h
      · cases h

end Sys2Proof.Machine
end

