-- ==== Sys2Proof/Laws/Machine.lean ====
section
/-!
SUPPORT. What each operation and each step can do, once: the frame of the line loops, of the operations, and the cases of
one step.
-/

namespace Sys2Proof.Machine

/-! ### The frame of the line -/

/-- What line operations leave alone, and the trace they only extend. -/
structure LineKeeps (s t : State) : Prop where
  cfg : t.cfg = s.cfg
  remote : t.remote = s.remote
  latch : t.latch = s.latch
  status : t.status = s.status
  activity : t.activity = s.activity
  store : t.store = s.store
  ports : t.ports = s.ports
  draws : t.draws = s.draws
  inputs : t.env.inputs = s.env.inputs
  pending : t.env.pending = s.env.pending
  storeAnswers : t.env.storeAnswers = s.env.storeAnswers
  hostTxns : t.env.hostTxns = s.env.hostTxns
  hostAnswers : t.env.hostAnswers = s.env.hostAnswers
  trace : s.trace <+: t.trace

theorem LineKeeps.refl (s : State) : LineKeeps s s :=
  ⟨rfl, rfl, rfl, rfl, rfl, rfl, rfl, rfl, rfl, rfl, rfl, rfl, rfl, List.prefix_refl _⟩

theorem LineKeeps.trans {s t u : State} (h : LineKeeps s t) (k : LineKeeps t u) : LineKeeps s u :=
  ⟨k.cfg.trans h.cfg, k.remote.trans h.remote, k.latch.trans h.latch, k.status.trans h.status,
    k.activity.trans h.activity, k.store.trans h.store, k.ports.trans h.ports, k.draws.trans h.draws,
    k.inputs.trans h.inputs, k.pending.trans h.pending, k.storeAnswers.trans h.storeAnswers, k.hostTxns.trans h.hostTxns,
    k.hostAnswers.trans h.hostAnswers, h.trace.trans k.trace⟩

theorem lineKeeps_performOp (op : LineOp) (a : LineAnswer) (s : State) : LineKeeps s (performOp op a s) := by
  constructor <;> simp

theorem lineKeeps_withLineAnswers (as : List LineAnswer) (s : State) : LineKeeps s (s.withLineAnswers as) := by
  constructor <;> simp

theorem lineKeeps_setTx (p : TxPos) (s : State) : LineKeeps s (s.setTx p) := by
  constructor <;> simp

/-- The list form touches the level, the trace, the time and the answers alone; what is left when it waits is an end of the
list that is not empty, with no answer left. -/
theorem performOps_cases (ops : List LineOp) (s : State) :
    match performOps ops s with
    | .done t => LineKeeps s t ∧ t.tx = s.tx
    | .failed t => LineKeeps s t ∧ t.tx = s.tx
    | .waiting left t => LineKeeps s t ∧ t.tx = s.tx ∧ left ≠ [] ∧ left <:+ ops ∧ t.env.lineAnswers = [] := by
  induction ops generalizing s with
  | nil => exact ⟨.refl s, rfl⟩
  | cons op ops ih =>
    unfold performOps
    cases h : s.env.lineAnswers with
    | nil => exact ⟨.refl s, rfl, by simp, List.suffix_refl _, h⟩
    | cons a as =>
      have k : LineKeeps s (performOp op a (s.withLineAnswers as)) :=
        (lineKeeps_withLineAnswers as s).trans (lineKeeps_performOp op a _)
      have e : (performOp op a (s.withLineAnswers as)).tx = s.tx := by simp
      by_cases hok : a.isOk = true
      · simp only [hok, if_true]
        have key := ih (performOp op a (s.withLineAnswers as))
        cases hp : performOps ops (performOp op a (s.withLineAnswers as)) with
        | done t => rw [hp] at key; exact ⟨k.trans key.1, key.2.trans e⟩
        | failed t => rw [hp] at key; exact ⟨k.trans key.1, key.2.trans e⟩
        | waiting left t =>
          rw [hp] at key
          exact ⟨k.trans key.1, key.2.1.trans e, key.2.2.1, key.2.2.2.1.trans (List.suffix_cons _ _), key.2.2.2.2⟩
      · simp only [hok]
        exact ⟨k, e⟩

/-! ### The position -/

theorem opAt_none {c : Config} {f : Frame} {p : TxPos} (h : opAt c f p = none) : p.phase = .idle := by
  obtain ⟨k, ph, i, hf, st⟩ := p
  cases ph <;> cases hf <;> simp_all [opAt, levelDur]

/-- The next position is never `IDLE` as a position. -/
theorem nextPos_phase {c : Config} {reps : Nat} {p q : TxPos} (h : nextPos c reps p = some q) : q.phase ≠ .idle := by
  obtain ⟨k, ph, i, hf, st⟩ := p
  cases st <;> cases ph <;> cases hf <;> simp [nextPos] at h <;>
    first
    | (subst h; simp)
    | (split at h <;> simp at h <;> (try subst h) <;> simp)
    | (obtain ⟨-, rfl⟩ := h; simp)

/-- The next position is in range (R32). -/
theorem nextPos_inRange {c : Config} {reps : Nat} {p q : TxPos} (hv : c.valid = true) (hp : p.inRange c reps)
    (h : nextPos c reps p = some q) : q.inRange c reps := by
  have hn : ∀ k, 0 < npairs c k := by
    intro k
    simp only [Config.valid, Bool.and_eq_true, decide_eq_true_eq] at hv
    unfold npairs; split <;> omega
  obtain ⟨k, ph, i, hf, st⟩ := p
  have hk := hn k
  have hk1 := hn (k + 1)
  cases st <;> cases ph <;> cases hf <;> simp [nextPos] at h <;>
    first
    | (subst h; simp_all [TxPos.inRange])
    | (split at h <;> simp at h <;> subst h <;> simp_all [TxPos.inRange])
    | (obtain ⟨h1, rfl⟩ := h; simp_all [TxPos.inRange])

/-- Everything the transmit loop can do. -/
theorem txRun_cases (as : List LineAnswer) (s : State) :
    match txRun as s with
    | .done t => LineKeeps s t ∧ t.tx.phase = .idle
    | .failed t => LineKeeps s t
    | .waiting t => LineKeeps s t ∧ t.env.lineAnswers = [] ∧ (s.tx.phase ≠ .idle → t.tx.phase ≠ .idle)
        ∧ (s.cfg.valid = true → s.tx.inRange s.cfg s.latch.reps → t.tx.inRange s.cfg s.latch.reps) := by
  induction as generalizing s with
  | nil => exact ⟨lineKeeps_withLineAnswers _ _, rfl, id, fun _ h => h⟩
  | cons a as ih =>
    unfold txRun
    cases h : opAt s.cfg s.latch.frame s.tx with
    | none => exact ⟨lineKeeps_withLineAnswers _ _, by simpa using opAt_none h⟩
    | some op =>
      by_cases hok : a.isOk = true
      · simp only [hok, if_true]
        cases hn : nextPos s.cfg s.latch.reps s.tx with
        | none =>
          exact ⟨((lineKeeps_withLineAnswers as s).trans (lineKeeps_performOp op a _)).trans (lineKeeps_setTx _ _), by simp⟩
        | some p =>
          have k : LineKeeps s ((performOp op a s).setTx p) := (lineKeeps_performOp op a s).trans (lineKeeps_setTx p _)
          have key := ih ((performOp op a s).setTx p)
          simp only
          cases ht : txRun as ((performOp op a s).setTx p) with
          | done t => rw [ht] at key; exact ⟨k.trans key.1, key.2⟩
          | failed t => rw [ht] at key; exact k.trans key
          | waiting t =>
            rw [ht] at key
            refine ⟨k.trans key.1, key.2.1, fun _ => key.2.2.1 (by simpa using nextPos_phase hn), ?_⟩
            intro hv hr
            have := key.2.2.2 (by simpa using hv) (by simpa using nextPos_inRange hv hr hn)
            simpa using this
      · simp only [hok]
        exact (lineKeeps_withLineAnswers as s).trans (lineKeeps_performOp op a _)

/-! ### The operations -/

/-- What every operation, and every part of one, does to the rest of the state: the store keeps its form, an answer to the
host side is kept only while none of its transactions is outstanding, and a response is presented only at a completion. -/
structure OpDoes (s t : State) : Prop where
  cfg : t.cfg = s.cfg
  draws : t.draws = s.draws
  inputs : t.env.inputs = s.env.inputs
  pending : t.env.pending = s.env.pending
  trace : s.trace <+: t.trace
  storeWf : Store.wf t.store = Store.wf s.store
  served : s.env.hostTxns = [] ∨ s.env.hostAnswers = [] → t.env.hostTxns = [] ∨ t.env.hostAnswers = []
  rsp : t.ports.rsp = s.ports.rsp ∨
    (∃ frame, t.ports.rsp = some { result := t.status.result, frame := frame })
      ∧ t.status.done = true ∧ t.status.busy = false ∧ t.activity = .idle

theorem OpDoes.refl (s : State) : OpDoes s s :=
  ⟨rfl, rfl, rfl, rfl, List.prefix_refl _, rfl, id, .inl rfl⟩

theorem LineKeeps.does {s t : State} (h : LineKeeps s t) : OpDoes s t :=
  ⟨h.cfg, h.draws, h.inputs, h.pending, h.trace, by rw [h.store], by rw [h.hostTxns, h.hostAnswers]; exact id,
    .inl (by rw [h.ports])⟩

theorem OpDoes.complete {s t : State} (h : OpDoes s t) (code : ResultCode) (f : Option Frame) :
    OpDoes s (complete code f t) :=
  ⟨h.cfg, h.draws, h.inputs, h.pending, h.trace, h.storeWf, h.served, .inr ⟨⟨f, rfl⟩, rfl, rfl, rfl⟩⟩

theorem OpDoes.raise {s t : State} (h : OpDoes s t) (code : ResultCode) : OpDoes s (raise code t) :=
  ⟨h.cfg, h.draws, h.inputs, h.pending, h.trace, h.storeWf, h.served, .inr ⟨⟨none, rfl⟩, rfl, rfl, rfl⟩⟩

/-- SEND from its transmit step on. -/
theorem sendContinue_does (s : State) :
    OpDoes s (sendContinue s) ∧ (sendContinue s).remote = s.remote ∧ (sendContinue s).latch = s.latch
      ∧ (sendContinue s).store = s.store := by
  have key := txRun_cases s.env.lineAnswers s
  unfold sendContinue transmit
  cases h : txRun s.env.lineAnswers s with
  | done t => rw [h] at key; exact ⟨key.1.does.complete _ _, key.1.remote, key.1.latch, key.1.store⟩
  | failed t => rw [h] at key; exact ⟨key.does.raise _, key.remote, key.latch, key.store⟩
  | waiting t => rw [h] at key; exact ⟨key.1.does, key.1.remote, key.1.latch, key.1.store⟩

/-- SEND_REPEAT at its PERSIST: it waits, or ends with the store as it was or the remote's code written, which is the
second if the result is `OK`. -/
theorem persistContinue_does (s : State) :
    OpDoes s (persistContinue s) ∧ (persistContinue s).remote = s.remote ∧ (persistContinue s).latch = s.latch
      ∧ ((persistContinue s).store = s.store
        ∨ (persistContinue s).store = Store.overwrite s.remote.address s.remote.rollingCode s.store)
      ∧ ((persistContinue s = { s with activity := .persisting } ∧ s.env.storeAnswers = [])
        ∨ ((persistContinue s).activity = .idle ∧ (persistContinue s).status.busy = false
          ∧ (s.tx.phase = .idle → (persistContinue s).tx.phase = .idle)
          ∧ ((persistContinue s).status.result = .ok →
            (persistContinue s).store = Store.overwrite s.remote.address s.remote.rollingCode s.store
              ∧ ∃ e, Store.lookup s.remote.address s.store = some e))) := by
  unfold persistContinue
  cases h : s.env.storeAnswers with
  | nil =>
    exact ⟨⟨rfl, rfl, rfl, rfl, List.prefix_refl _, rfl, id, .inl rfl⟩, rfl, rfl, .inl rfl, .inl ⟨rfl, rfl⟩⟩
  | cons a as =>
    obtain ⟨k1, k2, -⟩ := Store.persist_cases s.remote.address s.remote.rollingCode a s.store
    have kw := Store.persist_wf s.remote.address s.remote.rollingCode a s.store
    simp only
    generalize Store.persist s.remote.address s.remote.rollingCode a s.store = r at *
    have d : OpDoes s (answerCore r (s.withStoreAnswers as)) :=
      ⟨rfl, rfl, rfl, rfl, List.prefix_refl _, kw, id, .inl rfl⟩
    obtain ⟨st, table⟩ := r
    cases st
    · exact ⟨d.complete _ _, rfl, rfl, k1, .inr ⟨rfl, rfl, id, fun _ => k2 rfl⟩⟩
    · exact ⟨d.raise _, rfl, rfl, k1, .inr ⟨rfl, rfl, fun _ => rfl, by simp⟩⟩
    · exact ⟨d.raise _, rfl, rfl, k1, .inr ⟨rfl, rfl, fun _ => rfl, by simp⟩⟩

/-- SEND_REPEAT from its transmit step on. -/
theorem sendRepeatContinue_does (s : State) :
    OpDoes s (sendRepeatContinue s) ∧ (sendRepeatContinue s).latch = s.latch
      ∧ ((sendRepeatContinue s).remote = s.remote
        ∨ (sendRepeatContinue s).remote = { s.remote with rollingCode := s.remote.rollingCode + 1 })
      ∧ ((sendRepeatContinue s).store = s.store
        ∨ (sendRepeatContinue s).store = Store.overwrite s.remote.address (s.remote.rollingCode + 1) s.store) := by
  have key := txRun_cases s.env.lineAnswers s
  unfold sendRepeatContinue transmit
  cases h : txRun s.env.lineAnswers s with
  | done t =>
    rw [h] at key
    have k := key.1
    have b := k.does
    obtain ⟨d, r, l, st, -⟩ := persistContinue_does (advanceCode t)
    refine ⟨⟨d.cfg.trans b.cfg, d.draws.trans b.draws, d.inputs.trans b.inputs, d.pending.trans b.pending,
      b.trace.trans d.trace, d.storeWf.trans b.storeWf, fun x => d.served (b.served x), ?_⟩, l.trans k.latch, .inr ?_, ?_⟩
    · simpa [k.ports] using d.rsp
    · simp only [r, advanceCode_remote, k.remote]
    · simpa [k.store, k.remote] using st
  | failed t => rw [h] at key; exact ⟨key.does.raise _, key.latch, .inl key.remote, .inl key.store⟩
  | waiting t => rw [h] at key; exact ⟨key.1.does, key.1.latch, .inl key.1.remote, .inl key.1.store⟩

/-- A lone symbol. -/
theorem symbolContinue_does (left : List LineOp) (s : State) :
    OpDoes s (symbolContinue left s) ∧ (symbolContinue left s).remote = s.remote
      ∧ (symbolContinue left s).latch = s.latch ∧ (symbolContinue left s).store = s.store := by
  have key := performOps_cases left s
  unfold symbolContinue
  cases h : performOps left s with
  | done t =>
    rw [h] at key
    have d := key.1.does
    exact ⟨⟨d.cfg, d.draws, d.inputs, d.pending, d.trace, d.storeWf, d.served, .inl (by simp [key.1.ports])⟩,
      key.1.remote, key.1.latch, key.1.store⟩
  | failed t => rw [h] at key; exact ⟨key.1.does.raise _, key.1.remote, key.1.latch, key.1.store⟩
  | waiting l t =>
    rw [h] at key
    have d := key.1.does
    exact ⟨⟨d.cfg, d.draws, d.inputs, d.pending, d.trace, d.storeWf, d.served, .inl (by simp [key.1.ports])⟩,
      key.1.remote, key.1.latch, key.1.store⟩

/-- BUILD and the commands touch `CMD`, `FRAME`, the status and the response alone. -/
theorem buildOperation_does (key : Byte) (cmd : Nibble) (rc : Code) (addr : Addr) (s : State) :
    OpDoes s (buildOperation key cmd rc addr s) ∧ (buildOperation key cmd rc addr s).remote = s.remote
      ∧ (buildOperation key cmd rc addr s).latch.reps = s.latch.reps
      ∧ (buildOperation key cmd rc addr s).status.busy = false
      ∧ (buildOperation key cmd rc addr s).activity = .idle
      ∧ (s.tx.phase = .idle → (buildOperation key cmd rc addr s).tx.phase = .idle)
      ∧ (buildOperation key cmd rc addr s).store = s.store := by
  unfold buildOperation
  cases operandCommand s cmd with
  | none => exact ⟨(OpDoes.refl s).raise _, rfl, rfl, rfl, rfl, fun _ => rfl, rfl⟩
  | some c =>
    exact ⟨⟨rfl, rfl, rfl, rfl, List.prefix_refl _, rfl, id, .inr ⟨⟨_, rfl⟩, rfl, rfl, rfl⟩⟩, rfl, rfl, rfl, rfl, id, rfl⟩

/-! ### The host side's transactions -/

/-- What a transaction of the host side, issued or answered, does: it touches the store, its own port and its own lists
alone (log 15). -/
structure HostDoes (s t : State) : Prop where
  rest : t = { s with
    store := t.store
    ports := { s.ports with hostStoreRsp := t.ports.hostStoreRsp }
    env := { s.env with hostTxns := t.env.hostTxns, hostAnswers := t.env.hostAnswers } }
  storeWf : Store.wf t.store = Store.wf s.store
  served : s.env.hostTxns = [] ∨ s.env.hostAnswers = [] → t.env.hostTxns = [] ∨ t.env.hostAnswers = []

theorem HostDoes.does {s t : State} (h : HostDoes s t) : OpDoes s t := by
  have e := h.rest
  exact ⟨by rw [e], by rw [e], by rw [e], by rw [e], by rw [e], h.storeWf, h.served, .inl (by rw [e])⟩

/-- An answered transaction of the host side: LOAD leaves the store, PERSIST leaves it or overwrites its entry. -/
theorem hostAnswered_does (txn : StoreTxn) (a : StoreAnswer) (s : State) :
    HostDoes s (hostAnswered txn a s) ∧ (hostAnswered txn a s).env = s.env
      ∧ ((hostAnswered txn a s).store = s.store
        ∨ ∃ addr rc, txn = .persist addr rc ∧ (hostAnswered txn a s).store = Store.overwrite addr rc s.store) := by
  cases txn with
  | load => exact ⟨⟨rfl, rfl, id⟩, rfl, .inl rfl⟩
  | persist addr rc =>
    exact ⟨⟨rfl, Store.persist_wf addr rc a s.store, id⟩, rfl,
      (Store.persist_cases addr rc a s.store).1.imp id (fun h => ⟨addr, rc, rfl, h⟩)⟩

/-- Answered in the state with other lists of the host side. -/
theorem hostAnswered_withHost_does (txn : StoreTxn) (a : StoreAnswer) (txns : List StoreTxn) (as : List StoreAnswer)
    (s : State) (hs : s.env.hostTxns = [] ∨ s.env.hostAnswers = [] → txns = [] ∨ as = []) :
    HostDoes s (hostAnswered txn a (s.withHost txns as)) := by
  obtain ⟨h, e, -⟩ := hostAnswered_does txn a (s.withHost txns as)
  refine ⟨?_, h.storeWf, fun x => by rw [e]; exact hs x⟩
  rw [h.rest]
  rfl

/-- Everything an issued LOAD or PERSIST of the host side can do. -/
theorem hostIssue_does (txn : StoreTxn) (s : State) :
    HostDoes s (hostIssue txn s)
      ∧ ((hostIssue txn s).store = s.store
        ∨ ∃ addr rc, txn = .persist addr rc ∧ (hostIssue txn s).store = Store.overwrite addr rc s.store) := by
  unfold hostIssue
  split
  · rename_i a as _ _
    exact ⟨hostAnswered_withHost_does txn a [] as s (fun _ => .inl rfl), (hostAnswered_does txn a (s.withHost [] as)).2.2⟩
  · rename_i txns as h1
    refine ⟨⟨rfl, rfl, fun h => ?_⟩, .inl rfl⟩
    cases ha : s.env.hostAnswers with
    | nil => exact .inr rfl
    | cons a l =>
      rcases h with h | h
      · exact absurd ha (h1 a l h)
      · rw [ha] at h; cases h

/-- Everything an answer that comes to the host side can do. -/
theorem hostSettle_does (a : StoreAnswer) (s : State) :
    HostDoes s (hostSettle a s)
      ∧ ((hostSettle a s).store = s.store
        ∨ ∃ addr rc rest, s.env.hostTxns = .persist addr rc :: rest
          ∧ (hostSettle a s).store = Store.overwrite addr rc s.store) := by
  unfold hostSettle
  cases h : s.env.hostTxns with
  | nil => exact ⟨⟨rfl, rfl, fun _ => .inl rfl⟩, .inl rfl⟩
  | cons txn rest =>
    refine ⟨hostAnswered_withHost_does txn a rest _ s (fun hs => ?_), ?_⟩
    · rw [h] at hs; simpa using Or.inr hs
    · rcases (hostAnswered_does txn a (s.withHost rest s.env.hostAnswers)).2.2 with e | ⟨addr, rc, e1, e⟩
      · exact .inl e
      · exact .inr ⟨addr, rc, rest, by rw [e1], e⟩

/-! ### Taking a request -/

/-- Everything `takeRequest` can do: the word taken stands somewhere in the queue and the others keep their order; with the
block free it is the first, with an operation in progress the first transaction towards the store. -/
theorem takeRequest_cases (busy : Bool) (ws : List PortWord) :
    match takeRequest busy ws with
    | none => ∀ x ∈ ws, busy = true ∧ isStoreWord x = false
    | some (w, rest) => ∃ before later, ws = before ++ w :: later ∧ rest = before ++ later
        ∧ (busy = true → isStoreWord w = true) ∧ ∀ x ∈ before, busy = true ∧ isStoreWord x = false := by
  induction ws with
  | nil => simp [takeRequest]
  | cons w ws ih =>
    unfold takeRequest
    by_cases h : (busy && !isStoreWord w) = true
    · have hb : busy = true ∧ isStoreWord w = false := by simpa using h
      simp only [h, if_true]
      cases e : takeRequest busy ws with
      | none => rw [e] at ih; simpa [hb] using ih
      | some p =>
        rw [e] at ih
        obtain ⟨before, later, h1, h2, h3, h4⟩ := ih
        refine ⟨w :: before, later, by rw [h1]; rfl, by rw [h2]; rfl, h3, ?_⟩
        intro x hx
        rcases List.mem_cons.1 hx with rfl | hx
        · exact hb
        · exact h4 x hx
    · simp only [h]
      refine ⟨[], ws, rfl, rfl, ?_, by simp⟩
      intro hb
      simpa [hb] using h

@[simp] theorem takeRequest_idle (w : PortWord) (ws : List PortWord) : takeRequest false (w :: ws) = some (w, ws) := rfl

@[simp] theorem takeRequest_nil (busy : Bool) : takeRequest busy [] = none := rfl

/-- No request is lost, and those for the command port keep waiting while an operation is in progress. -/
theorem takeRequest_some {busy : Bool} {ws : List PortWord} {w : PortWord} {rest : List PortWord}
    (h : takeRequest busy ws = some (w, rest)) :
    ∃ before later, ws = before ++ w :: later ∧ rest = before ++ later
      ∧ (busy = true → isStoreWord w = true) ∧ ∀ x ∈ before, busy = true ∧ isStoreWord x = false := by
  have := takeRequest_cases busy ws
  rwa [h] at this

theorem takeRequest_none {busy : Bool} {ws : List PortWord} (h : takeRequest busy ws = none) :
    ∀ x ∈ ws, busy = true ∧ isStoreWord x = false := by
  have := takeRequest_cases busy ws
  rwa [h] at this

/-- A word of the store port is LOAD or PERSIST (R90). -/
theorem decode_storeWord (t : CodeTable) {w : PortWord} (h : isStoreWord w = true) :
    decode t w = .ok .load ∨ ∃ addr rc, decode t w = .ok (.persist addr rc) := by
  cases w with
  | st op addr rc =>
    have : op = 0#1 ∨ op = 1#1 := by clear h; revert op; decide
    rcases this with rfl | rfl
    · exact .inl rfl
    · exact .inr ⟨addr, rc, rfl⟩
  | pf => cases h
  | ms => cases h
  | ho => cases h

/-! ### One step -/

/-- The request taken, the tick it is taken at, and the requests left. -/
theorem accepting_some {s : State} {w : PortWord} (h : s.accepting = some w) :
    s.landing = .tick ∧ takeRequest s.activity.ownsLine s.env.pending = some (w, s.left) := by
  unfold State.accepting at h
  split_ifs at h with hc
  refine ⟨hc, ?_⟩
  unfold State.left
  cases ht : takeRequest s.activity.ownsLine s.env.pending with
  | none => rw [ht] at h; cases h
  | some p => rw [ht] at h; cases h; rfl

theorem accepting_of_take {s : State} {w : PortWord} {rest : List PortWord} (hl : s.landing = .tick)
    (ht : takeRequest s.activity.ownsLine s.env.pending = some (w, rest)) : s.accepting = some w ∧ s.left = rest := by
  simp [State.accepting, State.left, hl, ht]

theorem accepting_none {s : State} (hl : s.landing = .tick) (h : s.accepting = none) :
    takeRequest s.activity.ownsLine s.env.pending = none := by
  simpa [State.accepting, hl] using h

/-- A step is the landing of the next input in the state with the ports' presentation withdrawn and that input used up;
its Config and its store are well formed. -/
theorem step_next {s t : State} (h : step s = .next t) :
    s.cfg.valid = true ∧ Store.wf s.store = true
      ∧ landInput s.landing ((clearPorts s).withInputs s.env.inputs.tail) = .next t := by
  unfold step at h
  split at h
  · split at h
    · rename_i hv hw
      refine ⟨hv, hw, ?_⟩
      unfold nextInput at h
      cases hi : s.env.inputs with
      | nil =>
        rw [show (clearPorts s).env.inputs = [] from hi] at h
        have e : (clearPorts s).withInputs [] = clearPorts s := by simp [State.withInputs, clearPorts, ← hi]
        simpa [State.landing, hi, landInput, e] using h
      | cons x xs =>
        rw [show (clearPorts s).env.inputs = x :: xs from hi] at h
        simpa [State.landing, hi] using h
    · cases h
  · cases h

/-- At a tick the core moves. -/
theorem step_tick {s : State} (hv : s.cfg.valid = true) (hw : Store.wf s.store = true) (hl : s.landing = .tick) :
    step s = coreStep ((clearPorts s).withInputs s.env.inputs.tail) := by
  unfold State.landing at hl
  simp only [step, hv, hw, if_true, nextInput, clearPorts_env]
  cases hi : s.env.inputs with
  | nil =>
    have e : (clearPorts s).withInputs [] = clearPorts s := by simp [State.withInputs, clearPorts, ← hi]
    simp only [List.tail_nil, e]
  | cons x xs => rw [hi] at hl; simp at hl; subst hl; rfl

/-- A step that takes a request runs its word. -/
theorem step_accepting {s : State} {w : PortWord} (hv : s.cfg.valid = true) (hw : Store.wf s.store = true)
    (h : s.accepting = some w) : step s = runWord w s.atExec := by
  obtain ⟨hl, ht⟩ := accepting_some h
  rw [step_tick hv hw hl]
  have ht' : takeRequest ((clearPorts s).withInputs s.env.inputs.tail).activity.ownsLine
      ((clearPorts s).withInputs s.env.inputs.tail).env.pending = some (w, s.left) := ht
  simp only [coreStep, ht']
  rfl

/-- A tick that takes no request lets the core go on. -/
theorem step_goesOn {s : State} (hv : s.cfg.valid = true) (hw : Store.wf s.store = true) (hl : s.landing = .tick)
    (h : s.accepting = none) : step s = .next (goOn ((clearPorts s).withInputs s.env.inputs.tail)) := by
  rw [step_tick hv hw hl]
  have ht' : takeRequest ((clearPorts s).withInputs s.env.inputs.tail).activity.ownsLine
      ((clearPorts s).withInputs s.env.inputs.tail).env.pending = none := accepting_none (s := s) hl h
  simp only [coreStep, ht']

/-- The core going on with whatever it does. -/
theorem goOn_does (s : State) : OpDoes s (goOn s) ∧ (goOn s).latch = s.latch := by
  unfold goOn
  split
  · exact ⟨(sendContinue_does s).1, (sendContinue_does s).2.2.1⟩
  · exact ⟨(sendRepeatContinue_does s).1, (sendRepeatContinue_does s).2.1⟩
  · exact ⟨(persistContinue_does s).1, (persistContinue_does s).2.2.1⟩
  · exact ⟨(symbolContinue_does _ s).1, (symbolContinue_does _ s).2.2.1⟩
  · exact ⟨OpDoes.refl s, rfl⟩

/-- With no operation in progress and the phase `IDLE`, a legal state needs only its constants, its store, `REPS` and the
host side's lists. -/
theorem inv_of_idle {s : State} (hv : s.cfg.valid = true) (hw : Store.wf s.store = true) (ha : s.activity = .idle)
    (hb : s.status.busy = false) (hp : s.tx.phase = .idle) (hr : s.cfg.fits s.latch.reps = true)
    (hh : s.env.hostTxns = [] ∨ s.env.hostAnswers = []) : Inv s := by
  constructor <;> simp_all [Activity.ownsLine, Activity.transmitting, Activity.hostOperation]

/-- In a legal state a tick accepts a request of the command port exactly when `op_valid` and `op_ready` are both 1
(R42). -/
theorem accepting_iff {s : State} (h : Inv s) (hl : s.landing = .tick) :
    s.accepting.any (fun w => !isStoreWord w) = (opReady s && opValid s) := by
  have hb := h.busyOwns
  simp only [State.accepting, hl, if_true, opReady, opValid, hb]
  cases ho : s.activity.ownsLine with
  | false => cases hp : s.env.pending <;> simp
  | true =>
    cases ht : takeRequest true s.env.pending with
    | none => rfl
    | some p =>
      obtain ⟨-, -, -, -, h3, -⟩ := takeRequest_some (rest := p.2) (w := p.1) ht
      simp [h3 rfl]

end Sys2Proof.Machine
end

