-- ==== Sys2Proof/Laws/PerInstr.lean ====
section
/-!
SUPPORT. Per instruction: the encoded word, cut to the bits of the opcode table's mask, is the table's match.
-/

namespace Sys2Proof.Laws.EncodeMatchesTable

/-- The word with the bits outside the table's mask cleared: `F[47:44]` of a plain frame, both pulses of a symbol, `op_sel`
and `st_op` of the ports. -/
def masked : PortWord → PortWord
  | .pf bits => .pf (bits &&& 0x00F00000000000#56)
  | .ms pulses => .ms pulses
  | .ho w => .ho (HostWord.idle w.opSel)
  | .st stOp _ _ => .st stOp 0 0

/-- The `match` column of spec/opcode_table.json. -/
def row : Instr → PortWord
  | .my _ _ _ _ => .pf 0x00100000000000#56
  | .up _ _ _ _ => .pf 0x00200000000000#56
  | .myUp _ _ _ _ => .pf 0x00300000000000#56
  | .down _ _ _ _ => .pf 0x00400000000000#56
  | .myDown _ _ _ _ => .pf 0x00500000000000#56
  | .upDown _ _ _ _ => .pf 0x00600000000000#56
  | .myUpDown _ _ _ _ => .pf 0x00700000000000#56
  | .prog _ _ _ _ => .pf 0x00800000000000#56
  | .sunFlag _ _ _ _ => .pf 0x00900000000000#56
  | .flag _ _ _ _ => .pf 0x00A00000000000#56
  | .bit1 => .ms 0x1#2
  | .bit0 => .ms 0x2#2
  | .create _ _ _ => .ho (HostWord.idle 0x1#3)
  | .build _ _ _ _ => .ho (HostWord.idle 0x2#3)
  | .send _ _ => .ho (HostWord.idle 0x3#3)
  | .sendRepeat _ _ => .ho (HostWord.idle 0x4#3)
  | .load => .st 0x0#1 0 0
  | .persist _ _ => .st 0x1#1 0 0

/-- The encoder agrees with the opcode table on the bits that select the instruction (R91). -/
def Statement (i : Instr) : Prop := masked (encode CodeTable.decided i) = row i

/-- The selecting bits of a plain frame are its command nibble alone (R78). -/
theorem masked_plainFrame (key : Byte) (cmd cs : Nibble) (rc : Code) (addr : Addr) :
    (plainFrame key cmd cs rc addr).toBits &&& 0x00F00000000000#56 = cmd.setWidth 56 <<< 44 := by
  rw [masked_bits, ofBits_toBits]
  simp [plainFrame]

theorem my (key : Byte) (cs : Nibble) (rc : Code) (addr : Addr) : Statement (.my key cs rc addr) := by
  simp only [Statement, encode, encodePlain, masked, row, masked_plainFrame]
  decide

theorem up (key : Byte) (cs : Nibble) (rc : Code) (addr : Addr) : Statement (.up key cs rc addr) := by
  simp only [Statement, encode, encodePlain, masked, row, masked_plainFrame]
  decide

theorem myUp (key : Byte) (cs : Nibble) (rc : Code) (addr : Addr) : Statement (.myUp key cs rc addr) := by
  simp only [Statement, encode, encodePlain, masked, row, masked_plainFrame]
  decide

theorem down (key : Byte) (cs : Nibble) (rc : Code) (addr : Addr) : Statement (.down key cs rc addr) := by
  simp only [Statement, encode, encodePlain, masked, row, masked_plainFrame]
  decide

theorem myDown (key : Byte) (cs : Nibble) (rc : Code) (addr : Addr) : Statement (.myDown key cs rc addr) := by
  simp only [Statement, encode, encodePlain, masked, row, masked_plainFrame]
  decide

theorem upDown (key : Byte) (cs : Nibble) (rc : Code) (addr : Addr) : Statement (.upDown key cs rc addr) := by
  simp only [Statement, encode, encodePlain, masked, row, masked_plainFrame]
  decide

theorem myUpDown (key : Byte) (cs : Nibble) (rc : Code) (addr : Addr) : Statement (.myUpDown key cs rc addr) := by
  simp only [Statement, encode, encodePlain, masked, row, masked_plainFrame]
  decide

theorem prog (key : Byte) (cs : Nibble) (rc : Code) (addr : Addr) : Statement (.prog key cs rc addr) := by
  simp only [Statement, encode, encodePlain, masked, row, masked_plainFrame]
  decide

theorem sunFlag (key : Byte) (cs : Nibble) (rc : Code) (addr : Addr) : Statement (.sunFlag key cs rc addr) := by
  simp only [Statement, encode, encodePlain, masked, row, masked_plainFrame]
  decide

theorem flag (key : Byte) (cs : Nibble) (rc : Code) (addr : Addr) : Statement (.flag key cs rc addr) := by
  simp only [Statement, encode, encodePlain, masked, row, masked_plainFrame]
  decide

theorem bit1 : Statement .bit1 := rfl

theorem bit0 : Statement .bit0 := rfl

theorem create (key : Byte) (addr : Addr) (rc : Code) : Statement (.create key addr rc) := rfl

theorem build (key : Byte) (cmd : Nibble) (rc : Code) (addr : Addr) : Statement (.build key cmd rc addr) := rfl

theorem send (frame : FrameBits) (reps : Nat) : Statement (.send frame reps) := rfl

theorem sendRepeat (cmd : Nibble) (reps : Nat) : Statement (.sendRepeat cmd reps) := rfl

theorem load : Statement .load := rfl

theorem persist (addr : Addr) (rc : Code) : Statement (.persist addr rc) := rfl

end Sys2Proof.Laws.EncodeMatchesTable
end

