-- ==== Sys2Proof/Tests/Slice0.lean ====
section
/-!
SUPPORT. The model's own tests, their expected values from 95_test_vectors.md and from the encodings of 30_encoding.md,
and one witness for the hypotheses of every statement.
-/

namespace Sys2Proof.Tests.Slice0

open Sys2Proof Sys2Proof.Machine

/-! ### Helpers -/

/-- The table T0 of V18. -/
def table0 : List StoreEntry := [⟨"blind", 0xFFAA11, 42⟩, ⟨"door", 0x000001, 0xFFFF⟩]

/-- A state with the remote of P1, known registers and the table T0. -/
def demo : State :=
  { State.reset with
    remote := { key := 0xA7, address := 0xFFAA11, rollingCode := 42, valid := true }
    latch := { cmd := 0, reps := 0, frame := Frame.ofBits 0 }
    store := table0 }

/-- The demo state with given answers of the line. -/
def demoLine (as : List LineAnswer) : State := demo.withLineAnswers as

/-- The demo state with given transactions of the host side outstanding and given answers to it. -/
def demoHost (txns : List StoreTxn) (as : List StoreAnswer) : State := demo.withHost txns as

/-- The demo state with a request waiting. -/
def demoRequest (w : PortWord) : State := demo.withPending [w]

/-- The demo state with an input landing next. -/
def demoInput (x : Input) : State := demo.withInputs [x]

/-- A state in the middle of a SEND. -/
def demoSending : State :=
  { demo with
    activity := .sending
    tx := TxPos.start
    status := { busy := true, done := false, result := .ok } }

/-- A state that waits for the store in a SEND_REPEAT. -/
def demoPersisting : State :=
  { demo with
    remote := { key := 0xA7, address := 0xFFAA11, rollingCode := 7, valid := true }
    activity := .persisting
    status := { busy := true, done := false, result := .ok } }

/-- Does the outcome have a next state with the property? -/
def after (o : Host.Outcome State Fault Refusal) (p : State → Bool) : Bool :=
  match o with
  | .next t => p t
  | .fault _ => false
  | .refused _ => false

/-- Is the outcome this refusal? -/
def refusedWith (o : Host.Outcome State Fault Refusal) (r : Refusal) : Bool :=
  match o with
  | .next _ => false
  | .fault _ => false
  | .refused r' => decide (r' = r)

/-- The whitened Up frame of V1. -/
def upFrame : FrameBits := 0xA78080AABB11EE

/-! ### Decoding: words written out from R70, R74, R76, R88 and R90 (operands of V4) -/

theorem test_decode_my :
    decodeTableWord 56 0b10100111_0001_0100_00000000_00101010_00010001_10101010_11111111
      = some (.my 0xA7 0x4 42 0xFFAA11) := by decide

theorem test_decode_up :
    decodeTableWord 56 0b10100111_0010_0111_00000000_00101010_00010001_10101010_11111111
      = some (.up 0xA7 0x7 42 0xFFAA11) := by decide

theorem test_decode_myUp :
    decodeTableWord 56 0b10100111_0011_0110_00000000_00101010_00010001_10101010_11111111
      = some (.myUp 0xA7 0x6 42 0xFFAA11) := by decide

theorem test_decode_down :
    decodeTableWord 56 0b10100111_0100_0001_00000000_00101010_00010001_10101010_11111111
      = some (.down 0xA7 0x1 42 0xFFAA11) := by decide

theorem test_decode_myDown :
    decodeTableWord 56 0b10100111_0101_0000_00000000_00101010_00010001_10101010_11111111
      = some (.myDown 0xA7 0x0 42 0xFFAA11) := by decide

theorem test_decode_upDown :
    decodeTableWord 56 0b10100111_0110_0011_00000000_00101010_00010001_10101010_11111111
      = some (.upDown 0xA7 0x3 42 0xFFAA11) := by decide

theorem test_decode_myUpDown :
    decodeTableWord 56 0b10100111_0111_0010_00000000_00101010_00010001_10101010_11111111
      = some (.myUpDown 0xA7 0x2 42 0xFFAA11) := by decide

theorem test_decode_prog :
    decodeTableWord 56 0b10100111_1000_1101_00000000_00101010_00010001_10101010_11111111
      = some (.prog 0xA7 0xD 42 0xFFAA11) := by decide

theorem test_decode_sunFlag :
    decodeTableWord 56 0b10100111_1001_1100_00000000_00101010_00010001_10101010_11111111
      = some (.sunFlag 0xA7 0xC 42 0xFFAA11) := by decide

theorem test_decode_flag :
    decodeTableWord 56 0b10100111_1010_1111_00000000_00101010_00010001_10101010_11111111
      = some (.flag 0xA7 0xF 42 0xFFAA11) := by decide

theorem test_decode_bit1 : decodeTableWord 2 0b01 = some .bit1 := by decide

theorem test_decode_bit0 : decodeTableWord 2 0b10 = some .bit0 := by decide

theorem test_decode_create : decode CodeTable.decided
    (.ho { HostWord.idle 0b001 with opKey := 0xA7, opAddr := 0xFFAA11, opRc := 42, opCmd := 9, opReps := 3 })
      = .ok (.create 0xA7 0xFFAA11 42) := by decide

theorem test_decode_build : decode CodeTable.decided
    (.ho { HostWord.idle 0b010 with opKey := 0xA7, opCmd := 2, opRc := 42, opAddr := 0xFFAA11 })
      = .ok (.build 0xA7 2 42 0xFFAA11) := by decide

theorem test_decode_send : decode CodeTable.decided
    (.ho { HostWord.idle 0b011 with opFrame := 0xA78080AABB11EE, opReps := 2 })
      = .ok (.send 0xA78080AABB11EE 2) := by decide

theorem test_decode_sendRepeat : decode CodeTable.decided
    (.ho { HostWord.idle 0b100 with opCmd := 2, opReps := 5 }) = .ok (.sendRepeat 2 5) := by decide

theorem test_decode_load : decodeTableWord 1 0b0 = some .load := by decide

theorem test_decode_persist : decode CodeTable.decided (.st 0b1 0xFFAA11 43) = .ok (.persist 0xFFAA11 43) := by decide

/-- The words that are no instruction (R74, R79, R89). -/
theorem test_decode_rejects :
    decode CodeTable.decided (.ho (HostWord.idle 0b000)) = .error .reservedOpSel
      ∧ decode CodeTable.decided (.ho (HostWord.idle 0b111)) = .error .reservedOpSel
      ∧ decode CodeTable.decided (.pf 0x00B00000000000) = .error .reservedCommand
      ∧ decode CodeTable.decided (.ms 0b11) = .error .noSymbol := by decide

/-- Byte-wide table words, where the formats share their numbers (log 2). -/
theorem test_decode_byte_words : decodeTableWord 8 0 = some .load
    ∧ decodeTableWord 8 3 = some (.send 0 0) ∧ decodeTableWord 8 0x80 = none := by decide

/-- V2. -/
theorem test_parse : parseCommand ['U', 'p'] = some .up ∧ parseCommand ['u', 'p', 'p'] = none := by decide

/-! ### Well-formedness and refused inputs -/

/-- A Config with an 8-bit repetitions operand. -/
def narrow : Config := { Config.reference with repW := some 8 }

/-- The operand's largest value is well formed, the next is not (V15). -/
theorem test_wf_send : (Instr.send 0 255).wellFormed narrow = true ∧ (Instr.send 0 256).wellFormed narrow = false := by
  decide

theorem test_wf_sendRepeat :
    (Instr.sendRepeat 2 255).wellFormed narrow = true ∧ (Instr.sendRepeat 2 256).wellFormed narrow = false := by decide

theorem test_step_refuses_wide_reps :
    refusedWith (step { demo with cfg := narrow, env := { Env.empty with
      pending := [.ho { HostWord.idle 0b100 with opCmd := 2, opReps := 256 }] } }) .operandTooWide = true := by decide

theorem test_step_refuses_no_symbol : refusedWith (step (demoRequest (.ms 0b00))) .noSymbol = true := by decide

/-- Each constraint of 00_scope.md section 4, broken alone. -/
theorem test_config_refused :
    ({ Config.reference with tHalf := 0 }).valid = false ∧ ({ Config.reference with nSyncOnce := 0 }).valid = false
      ∧ ({ Config.reference with nSyncOnce := 7 }).valid = false
      ∧ ({ Config.reference with tSwsyncHigh := 604 }).valid = false
      ∧ ({ Config.reference with tSwsyncHigh := 2416 }).valid = false
      ∧ ({ Config.reference with tGap := 0 }).valid = false ∧ ({ Config.reference with repW := some 0 }).valid = false
      ∧ ({ Config.reference with codes := { CodeTable.decided with up := 3, myUp := 2 } }).valid = false := by decide

/-! ### One step of each instruction -/

/-- Plain Up frame of V1, its checksum and its whitening. -/
theorem test_vector_v1 :
    plainWithChecksum 0xA7 2 42 0xFFAA11 = ⟨0xA7, 0x27, 0x00, 0x2A, 0x11, 0xAA, 0xFF⟩
      ∧ whiten ⟨0xA7, 0x27, 0x00, 0x2A, 0x11, 0xAA, 0xFF⟩ = ⟨0xA7, 0x80, 0x80, 0xAA, 0xBB, 0x11, 0xEE⟩ := by decide

/-- V7. -/
theorem test_vector_v7 : dewhiten ⟨0xA7, 0x80, 0x80, 0xAA, 0xBB, 0x11, 0xEE⟩ = ⟨0xA7, 0x27, 0x00, 0x2A, 0x11, 0xAA, 0xFF⟩
    ∧ whiten ⟨0xA7, 0x80, 0x80, 0xAA, 0xBB, 0x11, 0xEE⟩ = ⟨0xA7, 0x27, 0xA7, 0x0D, 0xB6, 0xA7, 0x49⟩ := by decide

/-- V4, row My. -/
theorem test_my : after (exec (.my 0xA7 0 42 0xFFAA11) demo) (fun t =>
    decide (t.latch.frame = ⟨0xA7, 0xB3, 0xB3, 0x99, 0x88, 0x22, 0xDD⟩) && decide (t.latch.cmd = 1)) = true := by decide

/-- V4, row Up. -/
theorem test_up : after (exec (.up 0xA7 0 42 0xFFAA11) demo) (fun t =>
    decide (t.latch.frame = ⟨0xA7, 0x80, 0x80, 0xAA, 0xBB, 0x11, 0xEE⟩) && decide (t.latch.cmd = 2)) = true := by decide

/-- V4, row MyUp. -/
theorem test_myUp : after (exec (.myUp 0xA7 0 42 0xFFAA11) demo) (fun t =>
    decide (t.latch.frame = ⟨0xA7, 0x91, 0x91, 0xBB, 0xAA, 0x00, 0xFF⟩) && decide (t.latch.cmd = 3)) = true := by decide

/-- V4, row Down. -/
theorem test_down : after (exec (.down 0xA7 0 42 0xFFAA11) demo) (fun t =>
    decide (t.latch.frame = ⟨0xA7, 0xE6, 0xE6, 0xCC, 0xDD, 0x77, 0x88⟩) && decide (t.latch.cmd = 4)) = true := by decide

/-- V4, row MyDown. -/
theorem test_myDown : after (exec (.myDown 0xA7 0 42 0xFFAA11) demo) (fun t =>
    decide (t.latch.frame = ⟨0xA7, 0xF7, 0xF7, 0xDD, 0xCC, 0x66, 0x99⟩) && decide (t.latch.cmd = 5)) = true := by decide

/-- V4, row UpDown. -/
theorem test_upDown : after (exec (.upDown 0xA7 0 42 0xFFAA11) demo) (fun t =>
    decide (t.latch.frame = ⟨0xA7, 0xC4, 0xC4, 0xEE, 0xFF, 0x55, 0xAA⟩) && decide (t.latch.cmd = 6)) = true := by decide

/-- V4, row MyUpDown. -/
theorem test_myUpDown : after (exec (.myUpDown 0xA7 0 42 0xFFAA11) demo) (fun t =>
    decide (t.latch.frame = ⟨0xA7, 0xD5, 0xD5, 0xFF, 0xEE, 0x44, 0xBB⟩) && decide (t.latch.cmd = 7)) = true := by decide

/-- V4, row Prog. -/
theorem test_prog : after (exec (.prog 0xA7 0 42 0xFFAA11) demo) (fun t =>
    decide (t.latch.frame = ⟨0xA7, 0x2A, 0x2A, 0x00, 0x11, 0xBB, 0x44⟩) && decide (t.latch.cmd = 8)) = true := by decide

/-- V4, row SunFlag. -/
theorem test_sunFlag : after (exec (.sunFlag 0xA7 0 42 0xFFAA11) demo) (fun t =>
    decide (t.latch.frame = ⟨0xA7, 0x3B, 0x3B, 0x11, 0x00, 0xAA, 0x55⟩) && decide (t.latch.cmd = 9)) = true := by decide

/-- V4, row Flag. -/
theorem test_flag : after (exec (.flag 0xA7 0 42 0xFFAA11) demo) (fun t =>
    decide (t.latch.frame = ⟨0xA7, 0x08, 0x08, 0x22, 0x33, 0x99, 0x66⟩) && decide (t.latch.cmd = 10)) = true := by decide

/-- BUILD of V5, both byte orders. -/
theorem test_build : after (exec (.build 0x5C 8 0x1234 0x123456) demo) (fun t =>
    decide (t.ports.rsp = some ⟨.ok, some ⟨0x5C, 0xDE, 0xCC, 0xF8, 0xAE, 0x9A, 0x88⟩⟩)) = true := by decide

/-- V9: a reserved nibble leaves `FRAME` and `CMD`. -/
theorem test_build_reserved : after (exec (.build 0xA7 0xB 42 0xFFAA11) demo) (fun t =>
    decide (t.status.result = .unknownCommandError) && decide (t.latch = demo.latch)) = true := by decide

/-- R74 and R154. -/
theorem test_bit1 : after (exec .bit1 (demoLine (allOk 4))) (fun t =>
    decide (t.trace = [.set false true, .delay 604 true, .set true true, .delay 604 true]) && t.txOut) = true := by decide

/-- A lone symbol without answers waits. -/
theorem test_bit0 : after (exec .bit0 (demoLine [.ok])) (fun t =>
    decide (t.trace = [.set true true]) && t.status.busy && decide (linePort t = some (.delay 604))) = true := by decide

/-- P1, operation 1. -/
theorem test_create : after (exec (.create 0x11 0x123456 7) demo) (fun t =>
    decide (t.remote = ⟨0x11, 0x123456, 7, true⟩) && decide (t.store = table0)
      && decide (statusWord t = 0x06)) = true := by decide

/-- V14: a failure at operation 1 leaves the line high. -/
theorem test_send_fails : after (exec (.send upFrame 2) (demoLine [.ok, .fail false 5])) (fun t =>
    decide (t.trace = [.set true true, .delay 9415 false]) && t.txOut && decide (t.now = 5)
      && decide (t.status.result = .transmitError) && decide (t.tx.phase = .idle)) = true := by decide

/-- V11: 242 operations and 211861 microseconds for one frame. -/
theorem test_send : after (exec (.send upFrame 0) (demoLine (allOk 242))) (fun t =>
    decide (t.now = 211861) && decide (t.trace.length = 242) && decide (t.status.result = .ok) && !t.txOut) = true := by
  decide +kernel

/-- P1, operation 2. -/
theorem test_sendRepeat :
    after (exec (.sendRepeat 2 0) ((demoLine (allOk 242)).withStoreAnswers [.ok])) (fun t =>
      decide (t.remote.rollingCode = 43) && decide (t.latch.frame = ⟨0xA7, 0x80, 0x80, 0xAA, 0xBB, 0x11, 0xEE⟩)
        && decide (t.store = [⟨"blind", 0xFFAA11, 43⟩, ⟨"door", 1, 0xFFFF⟩]) && decide (statusWord t = 0x06)) = true := by
  decide +kernel

/-- V17. -/
theorem test_sendRepeat_no_remote :
    after (exec (.sendRepeat 2 0) State.reset) (fun t => decide (t.status.result = .buildError) && t.trace.isEmpty) = true
      ∧ after (exec (.sendRepeat 0xF 0) State.reset) (fun t => decide (t.status.result = .unknownCommandError)) = true := by
  decide

/-- V18, last row. -/
theorem test_load : after (exec .load (demoHost [] [.ok])) (fun t =>
    decide (t.ports.hostStoreRsp = some ⟨.success, some table0⟩) && decide (t.store = table0)) = true := by decide

/-- V18, first row. -/
theorem test_persist : after (exec (.persist 0xFFAA11 43) (demoHost [] [.ok])) (fun t =>
    decide (t.store = [⟨"blind", 0xFFAA11, 43⟩, ⟨"door", 1, 0xFFFF⟩])) = true := by decide

/-- V18, third row. -/
theorem test_persist_no_entry : after (exec (.persist 0x123456 7) (demoHost [] [.ok])) (fun t =>
    decide (t.store = table0) && decide (t.ports.hostStoreRsp = some ⟨.noEntry, none⟩)) = true := by decide

/-- V12, a few positions of the send, and V13's eighth run. -/
theorem test_vector_v12 : (sendOps Config.reference (Frame.ofBits upFrame) 2)[300]? = some (.set true)
    ∧ posAfter Config.reference 2 300 = some ⟨1, .payload, 6, true, false⟩
    ∧ (waveform false (okTrace (frameOps Config.reference (Frame.ofBits upFrame) 0)))[7]? = some (false, 1208) := by
  decide +kernel

/-! ### Witnesses: for every statement with hypotheses, a state and operands that meet them all -/

theorem demo_valid : demo.cfg.valid = true := by decide

theorem demo_wf : Store.wf demo.store = true := by decide

theorem demo_up : demo.cfg.codes.commandOf 2 = some .up := by decide

theorem demo_entry : Store.lookup demo.remote.address demo.store = some ⟨"blind", 0xFFAA11, 42⟩ := by decide

theorem witness_valid_table : CodeTable.decided.valid = true := by decide

theorem witness_valid_config : Config.reference.valid = true ∧ demo.cfg.valid = true ∧ Store.wf demo.store = true := by
  decide

/-- EncodeOfDecodeIsTheWord: a word of each format. -/
theorem witness_encode_of_decode :
    (∃ i, decode CodeTable.decided (.pf 0xA727002A11AAFF) = .ok i) ∧ (∃ i, decode CodeTable.decided (.ms 1) = .ok i)
      ∧ (∃ i, decode CodeTable.decided (.ho (HostWord.idle 1)) = .ok i)
      ∧ ∃ i, decode CodeTable.decided (.st 1 5 6) = .ok i :=
  ⟨⟨_, rfl⟩, ⟨_, rfl⟩, ⟨_, rfl⟩, ⟨_, rfl⟩⟩

/-- PlainFrameCommandIsBits47To44: both sides hold of the Up frame. -/
theorem witness_plain_frame : CodeTable.decided.valid = true
    ∧ decode CodeTable.decided (.pf 0xA727002A11AAFF) = .ok (Instr.command .up 0xA7 7 42 0xFFAA11)
    ∧ (0xA727002A11AAFF#56 : FrameBits) &&& (0xF#56 <<< 44) = (CodeTable.decided.code .up).setWidth 56 <<< 44 := by
  decide

/-- DataBitIsMostSignificantFirst and WhiteningClosedForm: the ends of the ranges, and both levels of a bit. -/
theorem witness_indices : 0 < 56 ∧ 55 < 56 ∧ 0 < 7 ∧ 6 < 7
    ∧ (Frame.ofBits upFrame).dataBit 0 = true ∧ (Frame.ofBits upFrame).dataBit 55 = false := by decide

/-- BuildCompletes: the smallest and the largest legal nibble. -/
theorem witness_build : demo.cfg.codes.commandOf 1 = some .my ∧ demo.cfg.codes.commandOf 10 = some .flag := by decide

/-- ReservedNibbleIsUnknownCommand: each of the six, and none of the neighbours 1 and 10. -/
theorem witness_reserved_nibbles : demo.cfg.codes.valid = true
    ∧ ([0, 0xB, 0xC, 0xD, 0xE, 0xF] : List Nibble).all (fun n => (demo.cfg.codes.commandOf n).isNone) = true
    ∧ (demo.cfg.codes.commandOf 1).isSome = true ∧ (demo.cfg.codes.commandOf 0xA).isSome = true := by decide

/-- SendRepeatWithoutRemoteIsBuildError: both clauses. -/
theorem witness_no_remote : State.reset.remote.valid = false
    ∧ State.reset.cfg.codes.commandOf 1 = some .my ∧ State.reset.cfg.codes.commandOf 0xF = none := by decide

/-- ReservedOpSelIsIllegalOperation: each of the four. -/
theorem witness_reserved_opSel : demo.cfg.valid = true ∧ Store.wf demo.store = true
    ∧ ∀ sel ∈ ([0b000, 0b101, 0b110, 0b111] : List (BitVec 3)),
      (demoRequest (.ho (HostWord.idle sel))).accepting = some (.ho (HostWord.idle sel)) := by
  refine ⟨by decide, by decide, ?_⟩
  decide

/-- PositionWalksTheListForm: the first and the last operation of a send of one frame. -/
theorem witness_position : Config.reference.valid = true
    ∧ 0 < (sendOps Config.reference (Frame.ofBits upFrame) 0).length
    ∧ 241 < (sendOps Config.reference (Frame.ofBits upFrame) 0).length := by decide +kernel

/-- SendRefinesItsListForm: a state with each kind of answer left. -/
theorem witness_send_refines : (demoLine [.ok, .fail true 0]).cfg.valid = true ∧ (demoLine []).cfg.valid = true := by
  decide

/-- SendCompletes. -/
theorem witness_send_completes (rest : List LineAnswer) :
    (demoLine (allOk 242 ++ rest)).cfg.valid = true
      ∧ (demoLine (allOk 242 ++ rest)).env.lineAnswers
        = allOk (sendOpsOf (demoLine (allOk 242 ++ rest)) upFrame 0).length ++ rest := by
  have h : (sendOpsOf demo upFrame 0).length = 242 := by decide +kernel
  have e : sendOpsOf (demoLine (allOk 242 ++ rest)) upFrame 0 = sendOpsOf demo upFrame 0 := rfl
  exact ⟨demo_valid, by rw [e, h]; rfl⟩

/-- SendAbortsAtTheFirstFailure: the first operation, one of the second frame (V14), and the last. -/
theorem witness_send_aborts : demo.cfg.valid = true
    ∧ (sendOpsOf demo upFrame 2)[0]? = some (.set true) ∧ (sendOpsOf demo upFrame 2)[300]? = some (.set true)
    ∧ (sendOpsOf demo upFrame 2)[757]? = some (.delay 30415)
    ∧ ∀ as, (demoLine as).env.lineAnswers = as := by
  refine ⟨by decide, by decide +kernel, by decide +kernel, by decide +kernel, fun _ => rfl⟩

/-- AbortLeavesTheLine: for SEND and for SEND_REPEAT, a failed set that reached its level and one that did not, and a
failed delay, which leaves the line high. -/
theorem witness_abort_leaves_the_line : demo.cfg.valid = true ∧ demo.cfg.codes.commandOf 2 = some .up
    ∧ demo.remote.valid = true
    ∧ (∀ i ∈ ([.send upFrame 2, .sendRepeat 2 2] : List Instr),
      after (exec i (demoLine [.fail true 0])) (fun t => t.txOut) = true
        ∧ after (exec i (demoLine [.fail false 0])) (fun t => !t.txOut) = true
        ∧ after (exec i (demoLine [.ok, .fail false 5])) (fun t => t.txOut && decide (t.now = 5)) = true)
    ∧ (sendOpsOf demo upFrame 2)[0]? = some (.set true) ∧ (sendOpsOf demo upFrame 2)[1]? = some (.delay 9415)
    ∧ (repeatOpsOf demo .up 2)[0]? = some (.set true) ∧ (repeatOpsOf demo .up 2)[1]? = some (.delay 9415) := by
  refine ⟨by decide, by decide, rfl, by decide, ?_, ?_, ?_, ?_⟩ <;> decide +kernel

/-- SendWaitsForTheLine: SEND and SEND_REPEAT, before the first operation and before the last. -/
theorem witness_send_waits : demo.cfg.valid = true ∧ demo.cfg.codes.commandOf 2 = some .up ∧ demo.remote.valid = true
    ∧ 0 < (sendOpsOf demo upFrame 2).length ∧ 757 < (sendOpsOf demo upFrame 2).length
    ∧ 0 < (repeatOpsOf demo .up 0).length ∧ 241 < (repeatOpsOf demo .up 0).length
    ∧ ∀ j, (demoLine (allOk j)).env.lineAnswers = allOk j :=
  ⟨by decide, by decide, rfl, by decide +kernel, by decide +kernel, by decide +kernel, by decide +kernel, fun _ => rfl⟩

/-- SymbolsComplete: the demo state with any answers, four successes among them. -/
theorem witness_symbols_complete (as : List LineAnswer) : (demoLine as).env.lineAnswers = as := rfl

/-- SymbolsAbortOrWait: the first and the last operation of each symbol, for both clauses, and both kinds of a failed
operation. -/
theorem witness_symbols_abort :
    (bitOps demo.cfg true)[0]? = some (.set false) ∧ (bitOps demo.cfg false)[3]? = some (.delay 604)
      ∧ after (exec .bit0 (demoLine [.fail false 0])) (fun t => !t.txOut) = true
      ∧ after (exec .bit0 (demoLine [.ok, .fail false 5])) (fun t => t.txOut && decide (t.now = 5)) = true
      ∧ ∀ as, (demoLine as).env.lineAnswers = as :=
  ⟨by decide, by decide, by decide, by decide, fun _ => rfl⟩

/-- The demo state with every answer of a send of one frame. -/
def demoSend (as : List StoreAnswer) : State := (demoLine (allOk 242)).withStoreAnswers as

/-- SendRepeatCompletes, StorageErrorKeepsTheAdvance (both failures of a write) and SendRepeatWaitsForTheStore. -/
theorem witness_send_repeat (as : List StoreAnswer) : (demoSend as).cfg.valid = true
    ∧ (demoSend as).cfg.codes.commandOf 2 = some .up ∧ (demoSend as).remote.valid = true
    ∧ Store.lookup (demoSend as).remote.address (demoSend as).store = some ⟨"blind", 0xFFAA11, 42⟩
    ∧ (demoSend as).env.lineAnswers = allOk (repeatOpsOf (demoSend as) .up 0).length ++ []
    ∧ (demoSend as).env.storeAnswers = as := by
  have h : (repeatOpsOf demo .up 0).length = 242 := by decide +kernel
  have e : repeatOpsOf (demoSend as) .up 0 = repeatOpsOf demo .up 0 := rfl
  refine ⟨demo_valid, demo_up, rfl, demo_entry, ?_, rfl⟩
  rw [e, h, List.append_nil]
  rfl

/-- AnswersMayComeLater: a SEND and a SEND_REPEAT that wait for the line, and a SEND_REPEAT that waits for the store. -/
theorem witness_answers_later :
    (∃ t, exec (.send upFrame 2) (demoLine [.ok]) = .next t ∧ t.activity = .sending)
      ∧ (∃ t, exec (.sendRepeat 2 2) (demoLine [.ok]) = .next t ∧ t.activity = .sendRepeating)
      ∧ ∃ t, exec (.sendRepeat 2 0) (demoSend []) = .next t ∧ t.activity = .persisting :=
  ⟨⟨_, rfl, by decide⟩, ⟨_, rfl, by decide⟩, ⟨_, rfl, by decide +kernel⟩⟩

/-- StorageErrorKeepsTheAdvance: no entry whatever the answer, and both failures of a write with one. -/
theorem witness_storage_error :
    Store.lookup demo.remote.address ({ demoSend [.ok] with store := [] } : State).store = none
      ∧ ({ demoSend [.ok] with store := [] } : State).env.storeAnswers = .ok :: []
      ∧ (demoSend [.failKept]).env.storeAnswers = .failKept :: [] ∧ StoreAnswer.failKept ≠ .ok
      ∧ (demoSend [.failWrote]).env.storeAnswers = .failWrote :: [] ∧ StoreAnswer.failWrote ≠ .ok := by decide

/-- TransmitErrorKeepsTheCode: a failure at the first and at the last operation. -/
theorem witness_transmit_error : demo.cfg.valid = true ∧ demo.cfg.codes.commandOf 2 = some .up
    ∧ demo.remote.valid = true ∧ (repeatOpsOf demo .up 0)[0]? = some (.set true)
    ∧ (repeatOpsOf demo .up 0)[241]? = some (.delay 30415)
    ∧ ∀ as, (demoLine as).env.lineAnswers = as :=
  ⟨by decide, by decide, rfl, by decide +kernel, by decide +kernel, fun _ => rfl⟩

/-- NSendsAdvanceByN: a step that accepts a SEND_REPEAT of Up and carries it to its end. -/
theorem witness_n_sends :
    let s := (demoSend [.ok]).withPending [.ho { HostWord.idle 4 with opCmd := 2 }]
    ∃ codes t, codes ≠ [] ∧ OkSends codes s t := by
  refine ⟨_, _, List.cons_ne_nil _ _,
    .send 2 0 _ (sendRepeatOperation 2 0 (accept ((demoSend [.ok]).withPending []))) _ _ [] (by decide) ?_ (.ended _ ?_) ?_
      (.none _)⟩
  · rfl
  · decide +kernel
  · decide +kernel

/-- LoadCompletes, LoadFailsOrWaits, PersistCompletes, PersistFailsOrWaits, LoadPersistLoadRoundTrips: answered at once,
waiting for an answer, waiting behind another transaction, and answered later. -/
theorem witness_store_transactions :
    (demoHost [] [.ok, .ok, .ok]).env.hostTxns = []
      ∧ (demoHost [] [.ok, .ok, .ok]).env.hostAnswers = .ok :: .ok :: .ok :: []
      ∧ (demoHost [] [.failKept]).env.hostAnswers = .failKept :: [] ∧ StoreAnswer.failKept ≠ .ok
      ∧ (demoHost [] [.failWrote]).env.hostAnswers = .failWrote :: [] ∧ StoreAnswer.failWrote ≠ .ok
      ∧ (demoHost [] []).env.hostAnswers = [] ∧ (demoHost [.load] []).env.hostTxns ≠ []
      ∧ Store.lookup 0xFFAA11 demo.store = some ⟨"blind", 0xFFAA11, 42⟩
      ∧ Store.lookup 0x11AAFF demo.store = none
      ∧ (let s := (demoHost [.load] []).withInputs [.hostAnswer .ok]
        s.cfg.valid = true ∧ Store.wf s.store = true ∧ s.landing = .hostAnswer .ok ∧ s.env.hostTxns = .load :: [])
      ∧ (let s := (demoHost [.persist 0xFFAA11 43, .load] []).withInputs [.hostAnswer .failWrote]
        s.landing = .hostAnswer .failWrote ∧ s.env.hostTxns = .persist 0xFFAA11 43 :: [.load]) := by decide

/-- A LOAD asked for while a send is in progress is answered in that step, and the send and the requests that wait stay as
they are (log 15). -/
theorem test_load_while_busy :
    let s := (demoSending.withPending [.ho (HostWord.idle 1), .st 0 0 0]).withHost [] [.ok]
    after (step s) (fun t =>
      decide (t.ports.hostStoreRsp = some ⟨.success, some table0⟩) && decide (t.activity = .sending)
        && decide (t.env.pending = [.ho (HostWord.idle 1)])) = true := by decide

/-- A LOAD outstanding keeps no request waiting: CREATE runs (R42, log 15). -/
theorem test_create_while_load_waits :
    after (step ((demoRequest (.ho (HostWord.idle 1))).withHost [.load] [])) (fun t =>
      decide (t.status.result = .ok) && t.status.done && decide (t.env.hostTxns = [.load])) = true := by decide

/-- OverwriteTouchesOneEntry: a well-formed table and two addresses of it. -/
theorem witness_overwrite : Store.wf table0 = true ∧ (0x000001 : Addr) ≠ 0xFFAA11
    ∧ (Store.lookup 0x000001 table0).isSome = true ∧ (Store.lookup 0xFFAA11 table0).isSome = true := by decide

/-- StepRunsTheDecodedInstruction: a request on each port. -/
theorem witness_step_runs : demo.cfg.valid = true ∧ Store.wf demo.store = true
    ∧ (demoRequest (.ho (HostWord.idle 1))).accepting = some (.ho (HostWord.idle 1))
    ∧ decode demo.cfg.codes (.ho (HostWord.idle 1)) = .ok (.create 0 0 0)
    ∧ (Instr.create 0 0 0).wellFormed demo.cfg = true
    ∧ (demoRequest (.st 1 5 6)).accepting = some (.st 1 5 6)
    ∧ decode demo.cfg.codes (.st 1 5 6) = .ok (.persist 5 6) := by decide

/-- StepGoesOnWithTheOperation: every clause, and one with a request that waits. -/
theorem witness_step_goes_on :
    (∀ a : Activity, let s : State := { demo with activity := a }
      s.cfg.valid = true ∧ Store.wf s.store = true ∧ s.landing = .tick ∧ s.accepting = none ∧ s.activity = a)
      ∧ (demoSending.withPending [.ho (HostWord.idle 1)]).accepting = none :=
  ⟨fun _ => ⟨demo_valid, demo_wf, rfl, rfl, rfl⟩, rfl⟩

/-- FetchWordIsAcceptedNext: a table word of each width. -/
theorem witness_fetch : (tableWord 56 0x200000000000).isSome = true ∧ (tableWord 3 4).isSome = true
    ∧ (tableWord 2 1).isSome = true ∧ (tableWord 1 1).isSome = true ∧ (tableWord 8 7).isSome = true := by decide

/-- BadInputsAreRefused: every clause, the read and the repetitions operand at their boundaries, and the plain frames next
to the legal nibbles. -/
theorem witness_bad_inputs : ({ demo with cfg := { demo.cfg with tGap := 0 } } : State).cfg.valid = false
    ∧ Store.wf [⟨"a", 1, 0⟩, ⟨"b", 1, 0⟩] = false ∧ Store.wf [⟨"a", 1, 0⟩, ⟨"a", 2, 0⟩] = false
    ∧ (demoInput (.read 16)).landing = .read 16 ∧ 15 < 16
    ∧ (demoInput (.storeEdit [⟨"a", 1, 0⟩, ⟨"b", 1, 0⟩])).landing = .storeEdit [⟨"a", 1, 0⟩, ⟨"b", 1, 0⟩]
    ∧ (demoRequest (.ms 0b00)).accepting = some (.ms 0b00) ∧ (demoRequest (.ms 0b11)).accepting = some (.ms 0b11)
    ∧ narrow.valid = true ∧ narrow.fits 255 = true ∧ narrow.fits 256 = false
    ∧ (∀ sel ∈ ([0b011, 0b100] : List (BitVec 3)),
      ({ demoRequest (.ho { HostWord.idle sel with opReps := 256 }) with cfg := narrow } : State).accepting
        = some (.ho { HostWord.idle sel with opReps := 256 }))
    ∧ (demoRequest (.pf 0x00B00000000000)).accepting = some (.pf 0x00B00000000000)
    ∧ demo.cfg.codes.commandOf (hi4 (Frame.ofBits 0x00B00000000000).b1) = none
    ∧ demo.cfg.codes.commandOf (hi4 (Frame.ofBits 0x00000000000000).b1) = none := by decide

/-- HostReadPresentsTheRegister: the ends of the range, and what is presented there. -/
theorem witness_host_read : (demoInput (.read 0)).landing = .read 0 ∧ (demoInput (.read 15)).landing = .read 15
    ∧ (demoInput (.read 15)).cfg.valid = true ∧ Store.wf (demoInput (.read 15)).store = true
    ∧ after (step (demoInput (.read 0))) (fun t => decide (t.ports.rdData = some (.num 4))) = true
    ∧ after (step (demoInput (.read 15))) (fun t => decide (t.ports.rdData = some (.num 30415))) = true := by decide

/-- ResetInputCutsEverything, in the middle of a send. -/
theorem witness_reset_input :
    let s : State := { demoInput .reset with activity := .sendRepeating, txOut := true }
    s.cfg.valid = true ∧ Store.wf s.store = true ∧ s.landing = .reset := by decide

/-- The demo state is legal, whatever waits or lands, the host side's answers apart. -/
theorem demo_inv (e : Env) (h : e.hostTxns = [] ∨ e.hostAnswers = []) : Inv { demo with env := e } :=
  inv_of_idle demo_valid demo_wf rfl rfl rfl rfl h

theorem demoSending_inv : Inv demoSending where
  cfgValid := by decide
  storeWf := by decide
  busyOwns := rfl
  phaseIdle := by decide
  posInRange := fun _ => ⟨Nat.le_refl 0, rfl, rfl⟩
  remoteHeld := fun _ => rfl
  repsFit := rfl
  doneClear := fun _ => rfl
  symbolLeft := by intro left h; cases h
  hostServed := .inl rfl

theorem demoPersisting_inv : Inv demoPersisting where
  cfgValid := by decide
  storeWf := by decide
  busyOwns := rfl
  phaseIdle := by decide
  posInRange := by intro h; cases h
  remoteHeld := fun _ => rfl
  repsFit := rfl
  doneClear := fun _ => rfl
  symbolLeft := by intro left h; cases h
  hostServed := .inl rfl

/-- UnansweredPortsLeaveTheBlockWaiting: at the line, with an answer of the store unused, and at the store, with an answer
of the line unused, with an entry there and without. -/
theorem witness_unanswered :
    (let s := demoSending.withStoreAnswers [.ok];
      Inv s ∧ s.landing = .tick ∧ s.accepting = none ∧ s.activity = .sending ∧ s.env.lineAnswers = [])
      ∧ (let s := demoPersisting.withLineAnswers [.ok];
        Inv s ∧ s.landing = .tick ∧ s.accepting = none ∧ s.activity = .persisting ∧ s.env.storeAnswers = []
          ∧ (Store.lookup s.remote.address s.store).isSome = true)
      ∧ Inv { demoPersisting with store := [] } :=
  ⟨⟨{ demoSending_inv with }, rfl, rfl, rfl, rfl⟩, ⟨{ demoPersisting_inv with }, rfl, rfl, rfl, rfl, by decide⟩,
    { demoPersisting_inv with storeWf := by decide }⟩

/-- EveryStepKeepsStatesLegal, ConstantTableNeverChanges, TraceOnlyGrows: a step of a send that waits, answered. -/
theorem witness_step : Inv demoSending ∧ demoSending.landing ≠ .reset ∧ ∃ t, step demoSending = .next t :=
  ⟨demoSending_inv, by decide, ⟨_, rfl⟩⟩

/-- OnlyCreateAndSendRepeatWriteTheRemote: a tick with a SEND waiting on the port. -/
theorem witness_remote_kept :
    let s := demoRequest (.ho { HostWord.idle 3 with opFrame := upFrame })
    (∃ t, step s = .next t) ∧ s.landing ≠ .reset ∧ ∀ key addr rc, s.running ≠ some (.create key addr rc) := by
  refine ⟨⟨_, rfl⟩, by decide, ?_⟩
  intro key addr rc h
  have e : (demoRequest (.ho { HostWord.idle 3 with opFrame := upFrame })).running = some (.send upFrame 0) := by decide
  rw [e] at h
  cases h

/-- The next step of the state writes the table T0, at this address with this code, and nothing from outside edits it. -/
def writesTable0 (s : State) (addr : Addr) (rc : Code) : Prop :=
  (∃ t, step s = .next t ∧ t.store ≠ table0) ∧ s.storeWrite = some (addr, rc) ∧ ∀ x, s.landing ≠ .storeEdit x

/-- StoreChangesOnlyByPersist: the PERSIST of a SEND_REPEAT that waits, one of the host side, and one answered later. -/
theorem witness_store_changes :
    writesTable0 (demoPersisting.withStoreAnswers [.ok]) 0xFFAA11 7
      ∧ writesTable0 ((demoRequest (.st 1 0xFFAA11 43)).withHost [] [.ok]) 0xFFAA11 43
      ∧ writesTable0 ((demoHost [.persist 0xFFAA11 44] []).withInputs [.hostAnswer .failWrote]) 0xFFAA11 44 := by
  refine ⟨⟨⟨_, rfl, ?_⟩, ?_, ?_⟩, ⟨⟨_, rfl, ?_⟩, ?_, ?_⟩, ⟨⟨_, rfl, ?_⟩, ?_, ?_⟩⟩
  all_goals first | decide | (intro x h; cases h)

/-- RequestsWaitWhileBusy: a request waits during a send, alone and before a LOAD. -/
theorem witness_busy :
    Inv demoSending ∧ demoSending.status.busy = true
      ∧ (∀ ws, Inv (demoSending.withPending ws) ∧ (demoSending.withPending ws).landing = .tick)
      ∧ (demoSending.withPending [.ho (HostWord.idle 1)]).accepting = none
      ∧ (demoSending.withPending [.ho (HostWord.idle 1), .st 0 0 0]).accepting = some (.st 0 0 0) :=
  ⟨demoSending_inv, rfl, fun _ => ⟨{ demoSending_inv with }, rfl⟩, rfl, rfl⟩

/-- InputsDoNotDisturbTheBlock: each kind of input lands during a send, failing answers among them. -/
theorem witness_inputs :
    ∀ x ∈ ([.read 3, .request (.ho (HostWord.idle 1)) 0, .lineAnswer .ok, .lineAnswer (.fail true 9), .storeAnswer .failKept,
        .hostAnswer .ok, .storeEdit []] : List Input),
      after (step (demoSending.withInputs [x])) (fun _ => true) = true ∧ (demoSending.withInputs [x]).landing ≠ .tick
        ∧ (demoSending.withInputs [x]).landing ≠ .reset := by decide

/-- ResponseIsPresentedAtCompletion: a CREATE. -/
theorem witness_response :
    let s : State := { demo with env := { Env.empty with pending := [.ho (HostWord.idle 1)] } }
    Inv s ∧ ∃ t, step s = .next t ∧ t.ports.rsp = some { result := .ok, frame := none } :=
  ⟨demo_inv _ (.inl rfl), _, rfl, rfl⟩

end Sys2Proof.Tests.Slice0
end

section
/-!
SUPPORT. What one instruction and one step can do: the shapes of an executed instruction, the rest of the state they keep,
and the legal states they keep.
-/

namespace Sys2Proof.Machine

/-! ### What an instruction does -/

/-- What each instruction does, as one state after it; the ten commands are one operation (R110). -/
inductive ExecShape (s : State) : Instr → State → Prop where
  | command (i : Instr) (c : Command) (key : Byte) (cs : Nibble) (rc : Code) (addr : Addr)
      (hi : i = Instr.command c key cs rc addr) : ExecShape s i (commandOperation c key rc addr s)
  | bit1 : ExecShape s .bit1 (symbolContinue (bitOps s.cfg true) s)
  | bit0 : ExecShape s .bit0 (symbolContinue (bitOps s.cfg false) s)
  | create (key : Byte) (addr : Addr) (rc : Code) :
      ExecShape s (.create key addr rc) (createOperation key addr rc (accept s))
  | build (key : Byte) (cmd : Nibble) (rc : Code) (addr : Addr) :
      ExecShape s (.build key cmd rc addr) (buildOperation key cmd rc addr (accept s))
  | send (frame : FrameBits) (reps : Nat) :
      ExecShape s (.send frame reps) (sendContinue (sendStart (Frame.ofBits frame) reps s))
  | sendRepeat (cmd : Nibble) (reps : Nat) :
      ExecShape s (.sendRepeat cmd reps) (sendRepeatOperation cmd reps (accept s))
  | load : ExecShape s .load (hostIssue .load s)
  | persist (addr : Addr) (rc : Code) : ExecShape s (.persist addr rc) (hostIssue (.persist addr rc) s)

/-- Every instruction answers a next state, the one of its shape. -/
theorem exec_shape (i : Instr) (s : State) : ∃ t, exec i s = .next t ∧ ExecShape s i t := by
  cases i with
  | my _ cs | up _ cs | myUp _ cs | down _ cs | myDown _ cs | upDown _ cs | myUpDown _ cs | prog _ cs | sunFlag _ cs
  | flag _ cs => exact ⟨_, rfl, .command _ _ _ cs _ _ rfl⟩
  | bit1 => exact ⟨_, rfl, .bit1⟩
  | bit0 => exact ⟨_, rfl, .bit0⟩
  | create => exact ⟨_, rfl, .create ..⟩
  | build => exact ⟨_, rfl, .build ..⟩
  | send => exact ⟨_, rfl, .send ..⟩
  | sendRepeat => exact ⟨_, rfl, .sendRepeat ..⟩
  | load => exact ⟨_, rfl, .load⟩
  | persist => exact ⟨_, rfl, .persist ..⟩

theorem exec_next {i : Instr} {s t : State} (h : exec i s = .next t) : ExecShape s i t := by
  obtain ⟨u, hu, shape⟩ := exec_shape i s
  rw [hu] at h
  cases h
  exact shape

/-! ### What an instruction leaves alone -/

/-- Operations follow one another as long as the first presents no response. -/
theorem OpDoes.after {s t u : State} (k : OpDoes t u) (h : OpDoes s t) (hr : t.ports.rsp = s.ports.rsp) : OpDoes s u :=
  ⟨k.cfg.trans h.cfg, k.draws.trans h.draws, k.inputs.trans h.inputs, k.pending.trans h.pending, h.trace.trans k.trace,
    k.storeWf.trans h.storeWf, fun x => k.served (h.served x), hr ▸ k.rsp⟩

/-- An error leaves no mark of the acceptance before it (R225). -/
@[simp] theorem raise_accept (code : ResultCode) (s : State) : raise code (accept s) = raise code s := rfl

theorem accept_does (s : State) : OpDoes s (accept s) :=
  ⟨rfl, rfl, rfl, rfl, List.prefix_refl _, rfl, id, .inl rfl⟩

theorem sendStart_does (frame : Frame) (reps : Nat) (s : State) : OpDoes s (sendStart frame reps s) :=
  ⟨rfl, rfl, rfl, rfl, List.prefix_refl _, rfl, id, .inl rfl⟩

theorem sendRepeatStart_does (c : Command) (cmd : Nibble) (reps : Nat) (s : State) :
    OpDoes s (sendRepeatStart c cmd reps s) :=
  ⟨rfl, rfl, rfl, rfl, List.prefix_refl _, rfl, id, .inl rfl⟩

/-- CREATE touches the remote, the status and the response alone. -/
theorem createOperation_does (key : Byte) (addr : Addr) (rc : Code) (s : State) :
    OpDoes s (createOperation key addr rc s) :=
  ⟨rfl, rfl, rfl, rfl, List.prefix_refl _, rfl, id, .inr ⟨⟨none, rfl⟩, rfl, rfl, rfl⟩⟩

/-- SEND_REPEAT is refused for its nibble or its remote, or goes on from its transmit step (R79, R182). -/
theorem sendRepeatOperation_cases (cmd : Nibble) (reps : Nat) (s : State) :
    (∃ code, sendRepeatOperation cmd reps s = raise code s)
      ∨ ∃ c, s.remote.valid = true
        ∧ sendRepeatOperation cmd reps s = sendRepeatContinue (sendRepeatStart c cmd reps s) := by
  unfold sendRepeatOperation
  cases operandCommand s cmd with
  | none => exact .inl ⟨_, rfl⟩
  | some c =>
    by_cases hv : s.remote.valid = true
    · exact .inr ⟨c, hv, by simp [hv]⟩
    · exact .inl ⟨.buildError, by simp [hv]⟩

theorem sendRepeatOperation_does (cmd : Nibble) (reps : Nat) (s : State) :
    OpDoes s (sendRepeatOperation cmd reps s) := by
  rcases sendRepeatOperation_cases cmd reps s with ⟨code, e⟩ | ⟨c, -, e⟩ <;> rw [e]
  · exact (OpDoes.refl s).raise code
  · exact (sendRepeatContinue_does _).1.after (sendRepeatStart_does c cmd reps s) rfl

theorem exec_does {i : Instr} {s t : State} (h : exec i s = .next t) : OpDoes s t := by
  cases exec_next h with
  | command i c key cs rc addr => exact (buildOperation_does key _ rc addr _).1.after (accept_does s) rfl
  | build key cmd rc addr => exact (buildOperation_does key cmd rc addr _).1.after (accept_does s) rfl
  | bit1 | bit0 => exact (symbolContinue_does _ s).1
  | create key addr rc => exact (createOperation_does key addr rc _).after (accept_does s) rfl
  | send frame reps => exact (sendContinue_does _).1.after (sendStart_does _ reps s) rfl
  | sendRepeat cmd reps => exact (sendRepeatOperation_does cmd reps _).after (accept_does s) rfl
  | load | persist => exact (hostIssue_does _ s).1.does

/-- A word that runs is rejected with an error reported, or is a well-formed instruction. -/
theorem runWord_cases {w : PortWord} {s t : State} (h : runWord w s = .next t) :
    (∃ code, t = raise code s)
      ∨ ∃ i, decode s.cfg.codes w = .ok i ∧ i.wellFormed s.cfg = true ∧ exec i s = .next t := by
  unfold runWord at h
  cases hd : decode s.cfg.codes w with
  | error e =>
    rw [hd] at h
    cases e with
    | reservedOpSel | reservedCommand => cases h; exact .inl ⟨_, rfl⟩
    | noSymbol => cases h
  | ok i =>
    rw [hd] at h
    by_cases hw : i.wellFormed s.cfg = true
    · exact .inr ⟨i, rfl, hw, by simpa [hw] using h⟩
    · simp [hw] at h

theorem runWord_does {w : PortWord} {s t : State} (h : runWord w s = .next t) : OpDoes s t := by
  rcases runWord_cases h with ⟨code, rfl⟩ | ⟨i, -, -, hx⟩
  · exact (OpDoes.refl s).raise code
  · exact exec_does hx

/-- A tick runs a word, taken from the queue, or goes on with the operation in progress. -/
theorem coreStep_cases {s t : State} (h : coreStep s = .next t) :
    (∃ w rest, takeRequest s.activity.ownsLine s.env.pending = some (w, rest)
        ∧ runWord w (s.withPending rest) = .next t)
      ∨ t = goOn s := by
  unfold coreStep at h
  cases ht : takeRequest s.activity.ownsLine s.env.pending with
  | none => rw [ht] at h; cases h; exact .inr rfl
  | some p => rw [ht] at h; exact .inl ⟨p.1, p.2, rfl, h⟩

theorem coreStep_cfg {s t : State} (h : coreStep s = .next t) : t.cfg = s.cfg := by
  rcases coreStep_cases h with ⟨w, rest, -, run⟩ | rfl
  · exact (runWord_does run).cfg
  · exact (goOn_does s).1.cfg

theorem hostRead_next {n : Nat} {s t : State} (h : hostRead n s = .next t) :
    ∃ v, readRegister s n = some v ∧ t = { s with ports := { s.ports with rdData := some v } } := by
  unfold hostRead at h
  cases hr : readRegister s n with
  | none => rw [hr] at h; cases h
  | some v => rw [hr] at h; cases h; exact ⟨v, rfl, rfl⟩

theorem storeEdit_next {table : List StoreEntry} {s t : State} (h : landInput (.storeEdit table) s = .next t) :
    Store.wf table = true ∧ t = { s with store := table } := by
  unfold landInput at h
  by_cases hw : Store.wf table = true
  · exact ⟨hw, by simpa [hw] using h.symm⟩
  · simp [hw] at h

theorem landInput_cfg {x : Input} {s t : State} (h : landInput x s = .next t) : t.cfg = s.cfg := by
  cases x with
  | tick => exact coreStep_cfg h
  | read n => obtain ⟨v, -, rfl⟩ := hostRead_next h; rfl
  | storeEdit table => obtain ⟨-, rfl⟩ := storeEdit_next h; rfl
  | hostAnswer a => cases h; exact (hostSettle_does a s).1.does.cfg
  | reset | request | lineAnswer | storeAnswer => cases h; rfl

/-- Settles O53: whatever lands, the constant table stays. -/
theorem constantTableNeverChanges : Obligations.ConstantTableNeverChanges := by
  intro s t run
  obtain ⟨-, -, lands⟩ := step_next run
  simpa using landInput_cfg lands

/-! ### Legal states: an operation that has ended, or that waits -/

/-- The clauses of `Inv` that do not speak of the operation in progress. -/
structure RestLegal (s : State) : Prop where
  cfgValid : s.cfg.valid = true
  storeWf : Store.wf s.store = true
  repsFit : s.cfg.fits s.latch.reps = true
  hostServed : s.env.hostTxns = [] ∨ s.env.hostAnswers = []

theorem Inv.restLegal {s : State} (h : Inv s) : RestLegal s := ⟨h.cfgValid, h.storeWf, h.repsFit, h.hostServed⟩

theorem RestLegal.does {s t : State} (h : RestLegal s) (d : OpDoes s t) (hr : t.latch.reps = s.latch.reps) :
    RestLegal t :=
  ⟨by rw [d.cfg]; exact h.cfgValid, by rw [d.storeWf]; exact h.storeWf, by rw [d.cfg, hr]; exact h.repsFit,
    d.served h.hostServed⟩

/-- Where the operation has ended with the phase `IDLE`, the rest is all there is to `Inv`. -/
theorem RestLegal.inv_of_idle {s : State} (h : RestLegal s) (ha : s.activity = .idle) (hb : s.status.busy = false)
    (hp : s.tx.phase = .idle) : Inv s :=
  Machine.inv_of_idle h.cfgValid h.storeWf ha hb hp h.repsFit h.hostServed

theorem RestLegal.inv_raise {s : State} (h : RestLegal s) (code : ResultCode) : Inv (raise code s) :=
  inv_of_idle { h with } rfl rfl rfl

theorem RestLegal.inv_persisting {s : State} (h : RestLegal s) (hb : s.status.busy = true) (hd : s.status.done = false)
    (hp : s.tx.phase = .idle) (hv : s.remote.valid = true) : Inv { s with activity := .persisting } where
  cfgValid := h.cfgValid
  storeWf := h.storeWf
  busyOwns := hb
  phaseIdle := by simp [hp, Activity.transmitting]
  posInRange := by simp [Activity.transmitting]
  remoteHeld := fun _ => hv
  repsFit := h.repsFit
  doneClear := fun _ => hd
  symbolLeft := by simp
  hostServed := h.hostServed

theorem Inv.phase_idle {s : State} (h : Inv s) (ht : s.activity.transmitting = false) : s.tx.phase = .idle :=
  h.phaseIdle.2 ht

theorem Inv.phase_ne_idle {s : State} (h : Inv s) (ht : s.activity.transmitting = true) : s.tx.phase ≠ .idle :=
  fun hp => by simp [h.phaseIdle.1 hp] at ht

/-- A transmit step that waits leaves a send in progress, at a position of it (R32). -/
theorem Inv.transmit_waiting {s t : State} (h : Inv s) (ht : s.activity.transmitting = true)
    (hw : transmit s = .waiting t) : Inv t := by
  have key := txRun_cases s.env.lineAnswers s
  rw [show txRun s.env.lineAnswers s = .waiting t from hw] at key
  obtain ⟨k, -, hphase, hrange⟩ := key
  have hpos := hrange h.cfgValid (h.posInRange ht)
  have hne := hphase (h.phase_ne_idle ht)
  have rest := h.restLegal.does k.does (by rw [k.latch])
  exact
    { rest with
      busyOwns := by rw [k.status, k.activity]; exact h.busyOwns
      phaseIdle := by simp [hne, k.activity, ht]
      posInRange := fun _ => by rw [k.cfg, k.latch]; exact hpos
      remoteHeld := by rw [k.activity, k.remote]; exact h.remoteHeld
      doneClear := by rw [k.activity, k.status]; exact h.doneClear
      symbolLeft := by rw [k.activity, k.cfg]; exact h.symbolLeft }

/-! ### Legal states: the operations -/

theorem sendContinue_inv {s : State} (h : Inv s) (ha : s.activity = .sending) : Inv (sendContinue s) := by
  obtain ⟨d, -, hl, -⟩ := sendContinue_does s
  have rest := h.restLegal.does d (by rw [hl])
  have key := txRun_cases s.env.lineAnswers s
  unfold sendContinue at rest ⊢
  cases hw : transmit s with
  | done t =>
    rw [show txRun s.env.lineAnswers s = .done t from hw] at key
    rw [hw] at rest
    exact rest.inv_of_idle rfl rfl key.2
  | failed t => rw [hw] at rest; exact rest.inv_of_idle rfl rfl rfl
  | waiting t => exact h.transmit_waiting (by rw [ha]; rfl) hw

/-- BUILD, and a command, ends in the step that runs it. -/
theorem buildOperation_inv {s : State} {key : Byte} {cmd : Nibble} {rc : Code} {addr : Addr} (h : RestLegal s)
    (hp : s.tx.phase = .idle) : Inv (buildOperation key cmd rc addr s) := by
  obtain ⟨d, -, hr, hb, hidle, hphase, -⟩ := buildOperation_does key cmd rc addr s
  exact (h.does d hr).inv_of_idle hidle hb (hphase hp)

/-- SEND_REPEAT at its PERSIST, in a state in which it may wait there. -/
theorem persistContinue_inv {s : State} (h : Inv { s with activity := .persisting }) : Inv (persistContinue s) := by
  obtain ⟨d, -, hl, -, hwaits | ⟨ha, hb, hp, -⟩⟩ := persistContinue_does s
  · rw [hwaits.1]; exact h
  · have rest : RestLegal s := { h.restLegal with }
    exact (rest.does d (by rw [hl])).inv_of_idle ha hb (hp (h.phase_idle rfl))

theorem sendRepeatContinue_inv {s : State} (h : Inv s) (ha : s.activity = .sendRepeating) :
    Inv (sendRepeatContinue s) := by
  have key := txRun_cases s.env.lineAnswers s
  unfold sendRepeatContinue
  cases hw : transmit s with
  | done t =>
    rw [show txRun s.env.lineAnswers s = .done t from hw] at key
    obtain ⟨k, hp⟩ := key
    have rest := h.restLegal.does k.does (by rw [k.latch])
    refine persistContinue_inv (RestLegal.inv_persisting { rest with } ?_ ?_ hp ?_)
    · simp [k.status, h.busyOwns, ha, Activity.ownsLine]
    · simpa [k.status] using h.doneClear (by rw [ha]; rfl)
    · simpa [k.remote] using h.remoteHeld (.inl ha)
  | failed t =>
    rw [show txRun s.env.lineAnswers s = .failed t from hw] at key
    exact (h.restLegal.does key.does (by rw [key.latch])).inv_raise _
  | waiting t => exact h.transmit_waiting (by rw [ha]; rfl) hw

/-- A lone symbol, from its first operation or from where it waits: what is left is an end of its operations (R74). -/
theorem symbolContinue_inv {s : State} {left : List LineOp} {b : Bool} (h : Inv s)
    (ht : s.activity.transmitting = false) (hl : left <:+ bitOps s.cfg b) : Inv (symbolContinue left s) := by
  obtain ⟨d, -, hlatch, -⟩ := symbolContinue_does left s
  have rest := h.restLegal.does d (by rw [hlatch])
  have key := performOps_cases left s
  have hp := h.phase_idle ht
  unfold symbolContinue at rest ⊢
  cases hw : performOps left s with
  | done t =>
    rw [hw] at key rest
    exact rest.inv_of_idle rfl rfl (by simpa [key.2] using hp)
  | failed t => rw [hw] at rest; exact rest.inv_of_idle rfl rfl rfl
  | waiting more t =>
    rw [hw] at key rest
    obtain ⟨k, htx, hne, hmore, -⟩ := key
    exact
      { rest with
        busyOwns := rfl
        phaseIdle := by simp [htx, hp, Activity.transmitting]
        posInRange := by simp [Activity.transmitting]
        remoteHeld := by simp
        doneClear := by simp [Activity.hostOperation]
        symbolLeft := by
          rintro _ ⟨⟩
          exact ⟨hne, b, by simpa [k.cfg] using hmore.trans hl⟩ }

/-- SEND at its transmit step (R163). -/
theorem sendStart_inv {s : State} {reps : Nat} (h : Inv s) (frame : Frame) (hr : s.cfg.fits reps = true) :
    Inv (sendStart frame reps s) where
  cfgValid := h.cfgValid
  storeWf := h.storeWf
  busyOwns := rfl
  phaseIdle := by simp [sendStart, TxPos.start, Activity.transmitting]
  posInRange := by simp [sendStart, TxPos.start, TxPos.inRange]
  remoteHeld := by simp [sendStart]
  repsFit := hr
  doneClear := fun _ => rfl
  symbolLeft := by simp [sendStart]
  hostServed := h.hostServed

/-- SEND_REPEAT at its transmit step, for a remote that exists (R182). -/
theorem sendRepeatStart_inv {s : State} {reps : Nat} (h : Inv s) (c : Command) (cmd : Nibble)
    (hr : s.cfg.fits reps = true) (hv : s.remote.valid = true) : Inv (sendRepeatStart c cmd reps (accept s)) where
  cfgValid := h.cfgValid
  storeWf := h.storeWf
  busyOwns := rfl
  phaseIdle := by simp [sendRepeatStart, TxPos.start, Activity.transmitting]
  posInRange := by simp [sendRepeatStart, TxPos.start, TxPos.inRange]
  remoteHeld := fun _ => hv
  repsFit := hr
  doneClear := fun _ => rfl
  symbolLeft := by simp [sendRepeatStart]
  hostServed := h.hostServed

/-- The host side's transactions touch nothing that `Inv` speaks of but the store's form and their own lists. -/
theorem HostDoes.inv {s t : State} (d : HostDoes s t) (h : Inv s) : Inv t := by
  have wf := d.storeWf.trans h.storeWf
  have served := d.served h.hostServed
  rw [d.rest]
  exact { h with storeWf := wf, hostServed := served }

/-! ### Legal states: one step -/

/-- An instruction that runs with no operation in progress. -/
theorem exec_inv_of_idle {i : Instr} {s t : State} (h : Inv s) (ha : s.activity = .idle)
    (hw : i.wellFormed s.cfg = true) (run : exec i s = .next t) : Inv t := by
  have rest : RestLegal (accept s) := { h.restLegal with }
  have hp : s.tx.phase = .idle := h.phase_idle (by rw [ha]; rfl)
  cases exec_next run with
  | command i c key cs rc addr => exact buildOperation_inv rest hp
  | build key cmd rc addr => exact buildOperation_inv rest hp
  | bit1 | bit0 => exact symbolContinue_inv h (by rw [ha]; rfl) (List.suffix_refl _)
  | create key addr rc => exact (rest.does (createOperation_does ..) rfl).inv_of_idle rfl rfl hp
  | send frame reps => exact sendContinue_inv (sendStart_inv h _ hw) rfl
  | sendRepeat cmd reps =>
    rcases sendRepeatOperation_cases cmd reps (accept s) with ⟨code, e⟩ | ⟨c, hv, e⟩ <;> rw [e]
    · exact rest.inv_raise code
    · exact sendRepeatContinue_inv (sendRepeatStart_inv h c cmd hw hv) rfl
  | load | persist => exact (hostIssue_does _ s).1.inv h

/-- A word of the store port issues a transaction of the host side. -/
theorem runWord_storeWord {w : PortWord} (hs : isStoreWord w = true) (s : State) :
    ∃ txn, runWord w s = .next (hostIssue txn s) := by
  unfold runWord
  rcases decode_storeWord s.cfg.codes hs with hd | ⟨addr, rc, hd⟩ <;> rw [hd]
  · exact ⟨.load, rfl⟩
  · exact ⟨.persist addr rc, rfl⟩

/-- A word of another port runs only with no operation in progress. -/
theorem runWord_inv {w : PortWord} {s t : State} (h : Inv s) (hidle : isStoreWord w = false → s.activity = .idle)
    (run : runWord w s = .next t) : Inv t := by
  cases hs : isStoreWord w with
  | true =>
    obtain ⟨txn, e⟩ := runWord_storeWord hs s
    rw [e] at run
    cases run
    exact (hostIssue_does txn s).1.inv h
  | false =>
    rcases runWord_cases run with ⟨code, rfl⟩ | ⟨i, -, hw, hx⟩
    · exact h.restLegal.inv_raise code
    · exact exec_inv_of_idle h (hidle hs) hw hx

theorem goOn_inv {s : State} (h : Inv s) : Inv (goOn s) := by
  unfold goOn
  cases ha : s.activity with
  | idle => exact h
  | sending => exact sendContinue_inv h ha
  | sendRepeating => exact sendRepeatContinue_inv h ha
  | persisting =>
    have e : { s with activity := .persisting } = s := by rw [← ha]
    exact persistContinue_inv (e ▸ h)
  | symbol left =>
    obtain ⟨-, b, hl⟩ := h.symbolLeft left ha
    exact symbolContinue_inv h (by rw [ha]; rfl) hl

theorem Activity.eq_idle_of_not_ownsLine {a : Activity} (h : a.ownsLine = false) : a = .idle := by
  cases a with
  | idle => rfl
  | sending | sendRepeating | persisting | symbol => cases h

theorem coreStep_inv {s t : State} (h : Inv s) (run : coreStep s = .next t) : Inv t := by
  rcases coreStep_cases run with ⟨w, rest, ht, hw⟩ | rfl
  · obtain ⟨-, -, -, -, hstore, -⟩ := takeRequest_some ht
    refine runWord_inv (s := s.withPending rest) { h with } (fun hs => ?_) hw
    refine Activity.eq_idle_of_not_ownsLine (Bool.eq_false_iff.2 fun ho => ?_)
    simp [hstore ho] at hs
  · exact goOn_inv h

/-- A value cut to `REP_W` bits fits them (R24). -/
theorem fits_limitReps (c : Config) (n : Nat) : c.fits (c.limitReps n) = true := by
  unfold Config.fits Config.limitReps
  cases c.repW with
  | none => rfl
  | some w => simpa using Nat.mod_lt n (Nat.two_pow_pos w)

theorem resetBlock_inv {s : State} (h : Inv s) : Inv (resetBlock s) :=
  RestLegal.inv_of_idle ⟨h.cfgValid, h.storeWf, fits_limitReps _ _, h.hostServed⟩ rfl rfl rfl

theorem landInput_inv {x : Input} {s t : State} (h : Inv s) (run : landInput x s = .next t) : Inv t := by
  cases x with
  | tick => exact coreStep_inv h run
  | reset => cases run; exact resetBlock_inv h
  | read n => obtain ⟨v, -, rfl⟩ := hostRead_next run; exact { h with }
  | storeEdit table => obtain ⟨hw, rfl⟩ := storeEdit_next run; exact { h with storeWf := hw }
  | hostAnswer a => cases run; exact (hostSettle_does a s).1.inv h
  | request | lineAnswer | storeAnswer => cases run; exact { h with }

/-- Settles O52: withdrawing the ports' presentation and using up the input keep the state legal, and so does whatever
lands. -/
theorem everyStepKeepsStatesLegal : Obligations.EveryStepKeepsStatesLegal := by
  intro s t h run
  obtain ⟨-, -, lands⟩ := step_next run
  exact landInput_inv (s := (clearPorts s).withInputs s.env.inputs.tail) { h with } lands

/-! ### Inputs and words that are refused -/

/-- With a legal Config and a legal store a step is the landing of its input. -/
theorem step_lands {s : State} (hv : s.cfg.valid = true) (hw : Store.wf s.store = true) :
    step s = landInput s.landing ((clearPorts s).withInputs s.env.inputs.tail) := by
  cases hi : s.env.inputs with
  | nil =>
    have hl : s.landing = .tick := by simp [State.landing, hi]
    rw [step_tick hv hw hl, hl, hi]
    rfl
  | cons x xs => simp [step, hv, hw, nextInput, State.landing, hi]

/-- No register has a number above 15 (R43). -/
theorem readRegister_above {n : Nat} (h : 15 < n) (s : State) : readRegister s n = none := by
  obtain ⟨m, rfl⟩ := Nat.exists_eq_add_of_le' h
  rfl

/-- Two pulses of one level are no symbol (R74). -/
theorem decodeSymbol_equalPulses {pulses : BitVec 2} (h : pulses = 0b00 ∨ pulses = 0b11) :
    decodeSymbol pulses = .error .noSymbol := by
  rcases h with rfl | rfl <;> rfl

/-- The two selects that carry a repetitions operand (R88). -/
theorem decodeHost_wellFormed {h : HostWord} (c : Config) (hs : h.opSel = 0b011 ∨ h.opSel = 0b100) :
    ∃ i, decodeHost h = .ok i ∧ i.wellFormed c = c.fits h.opReps := by
  rcases hs with hs | hs
  · exact ⟨.send h.opFrame h.opReps, by simp [decodeHost, hs], rfl⟩
  · exact ⟨.sendRepeat h.opCmd h.opReps, by simp [decodeHost, hs], rfl⟩

/-- A command nibble of no command (R79). -/
theorem decodePlain_reserved {t : CodeTable} {bits : FrameBits} (h : t.commandOf (hi4 (Frame.ofBits bits).b1) = none) :
    decodePlain t bits = .error .reservedCommand := by
  simp [decodePlain, h]

/-- Settles O46: the checks of `step` come first; then a refused input lands, or a refused word is taken. -/
theorem badInputsAreRefused : Obligations.BadInputsAreRefused := by
  intro s
  refine ⟨fun hv => by simp [step, hv], fun hv hw => by simp [step, hv, hw], fun hv hw => ⟨?_, ?_, ?_, ?_, ?_⟩⟩
  · intro n hl hn
    simp [step_lands hv hw, hl, landInput, hostRead, readRegister_above hn]
  · intro table hl ht
    simp [step_lands hv hw, hl, landInput, ht]
  · intro pulses ha hp
    simp [step_accepting hv hw ha, runWord, decode, decodeSymbol_equalPulses hp, runReject]
  · intro h ha hs hr
    obtain ⟨i, hd, hwf⟩ := decodeHost_wellFormed s.atExec.cfg hs
    have hr' : s.atExec.cfg.fits h.opReps = false := hr
    simp [step_accepting hv hw ha, runWord, decode, hd, hwf, hr']
  · intro bits ha hc
    have hc' : s.atExec.cfg.codes.commandOf (hi4 (Frame.ofBits bits).b1) = none := hc
    simp [step_accepting hv hw ha, runWord, decode, decodePlain_reserved hc', runReject]

end Sys2Proof.Machine
end

section
/-!
SUPPORT. The state's own statements: reset, the numbered registers, the step that takes a request or goes on, and what no
step but a reset undoes.
-/

namespace Sys2Proof.Machine

/-! ### One step as a landing -/

theorem hostRead_eq {s : State} {n : Nat} {v : RegValue} (h : readRegister s n = some v) :
    hostRead n s = .next { s with ports := { s.ports with rdData := some v } } := by
  simp [hostRead, h]

/-- The sixteen registers in the order of their numbers (R43). -/
def hostRegisters (s : State) : List RegValue :=
  [.num (statusWord s).toNat, .num s.remote.key.toNat, .num s.remote.address.toNat, .num s.remote.rollingCode.toNat,
    .num s.latch.cmd.toNat, .num s.latch.reps, .num s.latch.frame.toBits.toNat, .position s.tx s.txOut,
    .num s.cfg.tHalf, .num s.cfg.tWakeHigh, .num s.cfg.tWakeLow, .num s.cfg.tHwsync, .num s.cfg.nSyncOnce,
    .num s.cfg.nSyncRepeat, .num s.cfg.tSwsyncHigh, .num s.cfg.tGap]

theorem readRegister_eq (s : State) (n : Nat) : readRegister s n = (hostRegisters s)[n]? := by
  by_cases h : 15 < n
  · rw [readRegister_above h, List.getElem?_eq_none (show (hostRegisters s).length ≤ n from h)]
  · interval_cases n <;> rfl

/-- Settles O47: the read lands in a state with the same registers. -/
theorem hostReadPresentsTheRegister : Obligations.HostReadPresentsTheRegister := by
  intro s n v hv hw hl hn
  have hr : readRegister ((clearPorts s).withInputs s.env.inputs.tail) n = some v := by
    rw [readRegister_eq]; exact hn
  rw [step_lands hv hw, hl]
  exact hostRead_eq hr

theorem step_reset {s : State} (hv : s.cfg.valid = true) (hw : Store.wf s.store = true) (hl : s.landing = .reset) :
    step s = .next (resetBlock ((clearPorts s).withInputs s.env.inputs.tail)) := by
  rw [step_lands hv hw, hl]
  rfl

/-- Settles O50: the reset input puts every register of the block at its reset value and leaves the outside. -/
theorem resetInputCutsEverything : Obligations.ResetInputCutsEverything := by
  intro s hv hw hl
  exact ⟨_, step_reset hv hw hl, rfl, rfl, rfl, rfl, rfl, rfl, rfl, rfl, rfl, rfl⟩

/-- Settles O49: the fields of the reset state, read off. -/
theorem resetStateIsIdle : Obligations.ResetStateIsIdle :=
  ⟨rfl, rfl, rfl, rfl, rfl, rfl⟩

/-- Settles O51: the reset state is idle, with legal constants and an empty store. -/
theorem resetStateIsLegal : Obligations.ResetStateIsLegal :=
  RestLegal.inv_of_idle ⟨by decide, rfl, fits_limitReps _ _, .inl rfl⟩ rfl rfl rfl

/-- Settles O48: `STATUS` bit by bit. -/
theorem statusWordLayout : Obligations.StatusWordLayout := by
  refine ⟨fun s => ⟨?_, ?_, ?_, ?_, ?_⟩, rfl, rfl, rfl, rfl, rfl, rfl⟩
  · simp [statusWord]
  · simp [statusWord]
  · simp [statusWord]
  · ext i hi
    interval_cases i <;> simp [statusWord]
  · ext i hi
    interval_cases i <;> simp [statusWord]

/-! ### A tick -/

/-- A word that decodes to a well-formed instruction runs it (R42, R88). -/
theorem runWord_eq_exec {w : PortWord} {i : Instr} {s : State} (hd : decode s.cfg.codes w = .ok i)
    (hi : i.wellFormed s.cfg = true) : runWord w s = exec i s := by
  simp [runWord, hd, hi]

/-- Settles O43: the request taken is run in the state after it is taken, under the same constants. -/
theorem stepRunsTheDecodedInstruction : Obligations.StepRunsTheDecodedInstruction := by
  intro s w i hv hw ha hd hi
  rw [step_accepting hv hw ha]
  exact runWord_eq_exec (s := s.atExec) hd hi

theorem goOn_sending {s : State} (h : s.activity = .sending) : goOn s = sendContinue s := by simp [goOn, h]

theorem goOn_sendRepeating {s : State} (h : s.activity = .sendRepeating) : goOn s = sendRepeatContinue s := by
  simp [goOn, h]

theorem goOn_persisting {s : State} (h : s.activity = .persisting) : goOn s = persistContinue s := by simp [goOn, h]

theorem goOn_symbol {s : State} {left : List LineOp} (h : s.activity = .symbol left) :
    goOn s = symbolContinue left s := by simp [goOn, h]

theorem goOn_idle {s : State} (h : s.activity = .idle) : goOn s = s := by simp [goOn, h]

/-- With no operation in progress only an empty queue leaves nothing to take. -/
theorem takeRequest_free_none {ws : List PortWord} (h : takeRequest false ws = none) : ws = [] := by
  cases ws with
  | nil => rfl
  | cons w ws => rw [takeRequest_idle] at h; cases h

/-- Settles O44: the core goes on, one clause for each activity. -/
theorem stepGoesOnWithTheOperation : Obligations.StepGoesOnWithTheOperation := by
  intro s hv hw hl ha u
  have run : step s = .next (goOn u) := step_goesOn hv hw hl ha
  refine ⟨fun h => ?_, fun h => ?_, fun h => ?_, fun left h => ?_, fun h => ⟨?_, ?_⟩⟩
  · rw [run, goOn_sending (s := u) h]
  · rw [run, goOn_sendRepeating (s := u) h]
  · rw [run, goOn_persisting (s := u) h]
  · rw [run, goOn_symbol (s := u) h]
  · have ht := accepting_none hl ha
    rw [h] at ht
    exact takeRequest_free_none ht
  · rw [run, goOn_idle (s := u) h]

theorem withRequest_landing (s : State) (w : PortWord) : (s.withRequest w).landing = .tick := by
  cases h : s.env.inputs <;> simp [State.landing, State.withRequest, h]

/-- A request placed first, with the block free and a tick next, is taken (log 1). -/
theorem withRequest_accepting (s : State) (w : PortWord) : (s.withRequest w).accepting = some w :=
  (accepting_of_take (rest := s.env.pending) (withRequest_landing s w) rfl).1

/-- Settles O45: the table word is placed as a request. -/
theorem fetchWordIsAcceptedNext : Obligations.FetchWordIsAcceptedNext := by
  intro s nbits w p h
  have e : s.withFetchWord nbits w = s.withRequest p := by simp [State.withFetchWord, h]
  rw [e, withRequest_accepting]

/-! ### What every step but a reset keeps -/

/-- Every register of the block as it was, and nothing reported on the response port. -/
structure BlockKept (s t : State) : Prop where
  cfg : t.cfg = s.cfg
  remote : t.remote = s.remote
  latch : t.latch = s.latch
  tx : t.tx = s.tx
  txOut : t.txOut = s.txOut
  status : t.status = s.status
  activity : t.activity = s.activity
  trace : t.trace = s.trace
  now : t.now = s.now
  draws : t.draws = s.draws
  rsp : t.ports.rsp = none

/-- The host side's transactions do not touch the block (log 15). -/
theorem HostDoes.blockKept {s t : State} (h : HostDoes s t) (hr : s.ports.rsp = none) : BlockKept s t := by
  rw [h.rest]
  exact ⟨rfl, rfl, rfl, rfl, rfl, rfl, rfl, rfl, rfl, rfl, hr⟩

/-- An input but a tick and a reset is no step of the core (R61, log 12). -/
theorem step_blockKept {s t : State} (run : step s = .next t) (ht : s.landing ≠ .tick) (hr : s.landing ≠ .reset) :
    BlockKept s t := by
  obtain ⟨-, -, lands⟩ := step_next run
  cases hl : s.landing with
  | tick => exact absurd hl ht
  | reset => exact absurd hl hr
  | read n => rw [hl] at lands; obtain ⟨v, -, rfl⟩ := hostRead_next lands; constructor <;> rfl
  | storeEdit table => rw [hl] at lands; obtain ⟨-, rfl⟩ := storeEdit_next lands; constructor <;> rfl
  | hostAnswer a =>
    rw [hl] at lands
    cases lands
    exact { (hostSettle_does a _).1.blockKept rfl with }
  | request | lineAnswer | storeAnswer => rw [hl] at lands; cases lands; constructor <;> rfl

/-- A tick is one operation, or a part of one, in the state without the tick and the request that it took. -/
theorem step_tick_does {s t : State} (run : step s = .next t) (hl : s.landing = .tick) :
    ∃ xs ws, OpDoes (((clearPorts s).withInputs xs).withPending ws) t := by
  obtain ⟨hv, hw, -⟩ := step_next run
  rw [step_tick hv hw hl] at run
  rcases coreStep_cases run with ⟨w, rest, -, hx⟩ | rfl
  · exact ⟨_, rest, runWord_does hx⟩
  · exact ⟨s.env.inputs.tail, s.env.pending, (goOn_does ((clearPorts s).withInputs s.env.inputs.tail)).1⟩

/-- Settles O55: an operation extends the trace, any other input leaves it. -/
theorem traceOnlyGrows : Obligations.TraceOnlyGrows := by
  intro s t run hr
  by_cases hl : s.landing = .tick
  · obtain ⟨xs, ws, d⟩ := step_tick_does run hl
    exact d.trace
  · rw [(step_blockKept run hl hr).trace]

/-- The ports present nothing when a step begins, so a response says that an operation completes in it (R44). -/
theorem step_completes {s t : State} {r : Response} (run : step s = .next t) (hr : t.ports.rsp = some r) :
    r.result = t.status.result ∧ t.status.done = true ∧ t.status.busy = false ∧ t.activity = .idle := by
  obtain ⟨hv, hw, -⟩ := step_next run
  by_cases hl : s.landing = .tick
  · obtain ⟨xs, ws, d⟩ := step_tick_does run hl
    rcases d.rsp with quiet | ⟨⟨frame, h⟩, completed⟩
    · rw [quiet] at hr; cases hr
    · rw [h] at hr; cases hr; exact ⟨rfl, completed⟩
  by_cases hl' : s.landing = .reset
  · rw [step_reset hv hw hl'] at run; cases run; cases hr
  · rw [(step_blockKept run hl hl').rsp] at hr; cases hr

/-- Settles O59: the phase is `IDLE` since the state after the step is legal. -/
theorem responseIsPresentedAtCompletion : Obligations.ResponseIsPresentedAtCompletion := by
  intro s t r inv run hr
  obtain ⟨hresult, hdone, hbusy, hidle⟩ := step_completes run hr
  have legal := everyStepKeepsStatesLegal s t inv run
  exact ⟨hresult, hdone, hbusy, hidle, legal.phase_idle (by rw [hidle]; rfl)⟩

/-! ### The remote -/

theorem HostDoes.remote {s t : State} (h : HostDoes s t) : t.remote = s.remote := by rw [h.rest]

/-- An instruction but CREATE leaves the remote, or is a SEND_REPEAT and advances its code (R190, R194). -/
theorem exec_remote {i : Instr} {s t : State} (run : exec i s = .next t) (hc : ∀ key addr rc, i ≠ .create key addr rc) :
    t.remote = s.remote ∨ t.remote = (advanceCode s).remote ∧ ∃ cmd reps, i = .sendRepeat cmd reps := by
  cases exec_next run with
  | command i c key cs rc addr => exact .inl (buildOperation_does ..).2.1
  | build key cmd rc addr => exact .inl (buildOperation_does ..).2.1
  | bit1 | bit0 => exact .inl (symbolContinue_does ..).2.1
  | create key addr rc => exact absurd rfl (hc key addr rc)
  | send frame reps => exact .inl (sendContinue_does _).2.1
  | sendRepeat cmd reps =>
    rcases sendRepeatOperation_cases cmd reps (accept s) with ⟨code, e⟩ | ⟨c, -, e⟩ <;> rw [e]
    · exact .inl rfl
    · exact (sendRepeatContinue_does _).2.2.1.imp id fun h => ⟨h, cmd, reps, rfl⟩
  | load | persist => exact .inl (hostIssue_does _ s).1.remote

/-- Going on leaves the remote, or is a SEND_REPEAT at its transmit step and advances its code (R185). -/
theorem goOn_remote (s : State) :
    (goOn s).remote = s.remote ∨ (goOn s).remote = (advanceCode s).remote ∧ s.activity = .sendRepeating := by
  cases h : s.activity with
  | idle => rw [goOn_idle h]; exact .inl rfl
  | sending => rw [goOn_sending h]; exact .inl (sendContinue_does s).2.1
  | sendRepeating => rw [goOn_sendRepeating h]; exact (sendRepeatContinue_does s).2.2.1.imp id fun e => ⟨e, rfl⟩
  | persisting => rw [goOn_persisting h]; exact .inl (persistContinue_does s).2.1
  | symbol left => rw [goOn_symbol h]; exact .inl (symbolContinue_does left s).2.1

/-- A word that is taken and decodes is the instruction that runs. -/
theorem running_of_accepting {s : State} {w : PortWord} {i : Instr} (ha : s.accepting = some w)
    (hd : decode s.cfg.codes w = .ok i) : s.running = some i := by
  simp [State.running, ha, hd]

/-- Settles O54: by what the tick does, run a word or go on. -/
theorem onlyCreateAndSendRepeatWriteTheRemote : Obligations.OnlyCreateAndSendRepeatWriteTheRemote := by
  intro s t run hreset hcreate
  obtain ⟨hv, hw, -⟩ := step_next run
  by_cases hl : s.landing = .tick
  · cases ha : s.accepting with
    | none =>
      rw [step_goesOn hv hw hl ha] at run
      cases run
      exact (goOn_remote _).imp id fun ⟨e, h⟩ => ⟨e, hl, .inl h⟩
    | some w =>
      rw [step_accepting hv hw ha] at run
      rcases runWord_cases run with ⟨code, rfl⟩ | ⟨i, hd, -, hx⟩
      · exact .inl rfl
      · have hi := running_of_accepting ha hd
        refine (exec_remote hx fun key addr rc e => hcreate key addr rc (e ▸ hi)).imp id fun ⟨e, cmd, reps, h⟩ => ?_
        exact ⟨e, hl, .inr ⟨cmd, reps, h ▸ hi⟩⟩
  · exact .inl (step_blockKept run hl hreset).remote

/-! ### Requests while BUSY -/

/-- Settles O57: with the line or the remote owned, a tick takes a transaction towards the store or goes on. -/
theorem requestsWaitWhileBusy : Obligations.RequestsWaitWhileBusy := by
  intro s inv hbusy hl
  have owns : s.activity.ownsLine = true := inv.busyOwns ▸ hbusy
  cases ha : s.accepting with
  | none =>
    obtain ⟨d, hlatch⟩ := goOn_does ((clearPorts s).withInputs s.env.inputs.tail)
    exact ⟨_, step_goesOn inv.cfgValid inv.storeWf hl ha, hlatch, by rw [d.pending]; rfl, .inl ⟨rfl, d.pending⟩⟩
  | some w =>
    obtain ⟨before, later, hpending, hleft, hstore, -⟩ := takeRequest_some (accepting_some ha).2
    obtain ⟨txn, hrun⟩ := runWord_storeWord (hstore owns) s.atExec
    have rest := (hostIssue_does txn s.atExec).1.rest
    have hp : (hostIssue txn s.atExec).env.pending = before ++ later := by rw [rest]; exact hleft
    refine ⟨_, (step_accepting inv.cfgValid inv.storeWf ha).trans hrun, by rw [rest]; rfl, ?_,
      .inr ⟨w, before, later, rfl, hstore owns, hpending, hp⟩⟩
    simp [hp, hpending, hstore owns]

end Sys2Proof.Machine
end

section
/-!
SUPPORT. The host side's transactions towards the store in closed form: issued with nothing before them, outstanding, and
answered late.
-/

namespace Sys2Proof.Machine

/-- A LOAD by its answer (R200). -/
theorem Store.load_eq (a : StoreAnswer) (table : List StoreEntry) :
    Store.load a table = if a = .ok then { status := .success, table := some table }
      else { status := .ioFailure, table := none } := by
  cases a <;> rfl

/-- A PERSIST by its entry and its answer (R202 to R204); with no entry an overwrite changes nothing. -/
theorem Store.persist_eq (addr : Addr) (rc : Code) (a : StoreAnswer) (table : List StoreEntry) :
    Store.persist addr rc a table
      = (if Store.lookup addr table = none then .noEntry else if a = .ok then .success else .ioFailure,
        if a = .failKept then table else Store.overwrite addr rc table) := by
  cases h : Store.lookup addr table with
  | none => simp [Store.persist_of_none h, Store.overwrite_of_lookup_none addr rc table h]
  | some e =>
    by_cases ha : a = .ok
    · subst ha; simp [Store.persist_ok h]
    · simp [Store.persist_fails h rc ha, ha]

/-- The state after a LOAD of the host side, answered. -/
theorem hostAnswered_load (a : StoreAnswer) (s : State) :
    hostAnswered .load a s = { s with
      ports := { s.ports with hostStoreRsp := some (if a = .ok then { status := .success, table := some s.store }
        else { status := .ioFailure, table := none }) } } := by
  simp [hostAnswered, answerHost, Store.load_eq]

/-- The state after a PERSIST of the host side, answered. -/
theorem hostAnswered_persist (addr : Addr) (rc : Code) (a : StoreAnswer) (s : State) :
    hostAnswered (.persist addr rc) a s = { s with
      store := if a = .failKept then s.store else Store.overwrite addr rc s.store
      ports := { s.ports with
        hostStoreRsp := some {
          status := if Store.lookup addr s.store = none then .noEntry
            else if a = .ok then .success else .ioFailure
          table := none } } } := by
  simp [hostAnswered, answerHost, Store.persist_eq]

/-- Issued with nothing outstanding and an answer there, a transaction is answered at once. -/
theorem hostIssue_answered {s : State} {a : StoreAnswer} {as : List StoreAnswer} (txn : StoreTxn)
    (ht : s.env.hostTxns = []) (ha : s.env.hostAnswers = a :: as) :
    hostIssue txn s = hostAnswered txn a { s with env := { s.env with hostAnswers := as } } := by
  simp [hostIssue, ht, ha, State.withHost]

/-- Issued behind another, or with no answer there, a transaction is outstanding (R206). -/
theorem hostIssue_waits {s : State} (txn : StoreTxn) (h : s.env.hostTxns ≠ [] ∨ s.env.hostAnswers = []) :
    hostIssue txn s = { s with env := { s.env with hostTxns := s.env.hostTxns ++ [txn] } } := by
  unfold hostIssue
  split
  · rename_i ht ha
    simp [ht, ha] at h
  · rfl

/-- An answer that lands serves the oldest transaction outstanding (log 15). -/
theorem step_hostAnswer {s : State} {a : StoreAnswer} {txn : StoreTxn} {rest : List StoreTxn} (hv : s.cfg.valid = true)
    (hw : Store.wf s.store = true) (hl : s.landing = .hostAnswer a) (ht : s.env.hostTxns = txn :: rest) :
    step s = .next (hostAnswered txn a { clearPorts s with
      env := { s.env with inputs := s.env.inputs.tail, hostTxns := rest } }) := by
  have ht' : ((clearPorts s).withInputs s.env.inputs.tail).env.hostTxns = txn :: rest := ht
  rw [step_lands hv hw, hl]
  simp only [landInput, hostSettle, ht']
  rfl

/-- Settles O37: the LOAD is answered at once, with success. -/
theorem loadCompletes : Obligations.LoadCompletes := by
  intro s as ht ha
  simp only [exec, execLoad, hostIssue_answered .load ht ha, hostAnswered_load, if_true]

/-- Settles O38: the LOAD answered at once with a failure, outstanding, and answered when the answer lands. -/
theorem loadFailsOrWaits : Obligations.LoadFailsOrWaits := by
  refine fun s => ⟨fun a as ht ha hfail => ?_, fun h => ?_, fun a rest hv hw hl ht => ?_⟩
  · simp only [exec, execLoad, hostIssue_answered .load ht ha, hostAnswered_load, hfail, if_false]
  · simp only [exec, execLoad, hostIssue_waits .load h]
  · rw [step_hostAnswer hv hw hl ht, hostAnswered_load]
    rfl

/-- Settles O39: the PERSIST is answered at once, with success, for an entry that is there. -/
theorem persistCompletes : Obligations.PersistCompletes := by
  intro s addr rc e as he ht ha
  simp [exec, execPersist, hostIssue_answered _ ht ha, hostAnswered_persist, he]

/-- Settles O40: the PERSIST answered at once with no entry or with a failure, outstanding, and answered when the answer
lands. -/
theorem persistFailsOrWaits : Obligations.PersistFailsOrWaits := by
  refine fun s addr rc => ⟨fun a as hnone ht ha => ?_, fun e a as he ht ha hfail => ?_, fun h => ?_,
    fun a rest hv hw hl ht => ?_⟩
  · simp [exec, execPersist, hostIssue_answered _ ht ha, hostAnswered_persist, hnone,
      Store.overwrite_of_lookup_none addr rc s.store hnone]
  · simp [exec, execPersist, hostIssue_answered _ ht ha, hostAnswered_persist, he, hfail]
  · simp only [exec, execPersist, hostIssue_waits _ h]
  · rw [step_hostAnswer hv hw hl ht, hostAnswered_persist]
    rfl

end Sys2Proof.Machine
end

section
/-!
SUPPORT. The position register against the list form, a send that waits for the line, and the waveform of a trace.
-/

namespace Sys2Proof.Machine

/-! ### The position -/

/-- Settles O21: a send is a walk from the first position to `IDLE`. -/
theorem positionWalksTheListForm : Obligations.PositionWalksTheListForm := by
  intro c f reps hv
  simpa using walk_pos c f reps _ _ _ (walk_send c f reps hv) 0 rfl

/-- The transmit step with `j` successes and no more answers waits at the position after `j` successes, which names
operation `j` of the list. -/
theorem transmit_waits {s : State} {j : Nat} (hv : s.cfg.valid = true) (hp : s.tx = TxPos.start)
    (hj : j < (sendOps s.cfg s.latch.frame s.latch.reps).length) (h : s.env.lineAnswers = allOk j) :
    ∃ p, posAfter s.cfg s.latch.reps j = some p
      ∧ opAt s.cfg s.latch.frame p = (sendOps s.cfg s.latch.frame s.latch.reps)[j]?
      ∧ transmit s = .waiting ((afterOk ((sendOps s.cfg s.latch.frame s.latch.reps).take j) [] s).setTx p) := by
  obtain ⟨p, hw, -⟩ := tx_wait s hv hp j hj h
  have hpos : posAfter s.cfg s.latch.reps (0 + j) = some p :=
    txRun_pos j 0 s _ (by rw [hp]; rfl) (by rw [← h]; exact hw)
  obtain ⟨q, hq, hop⟩ := (positionWalksTheListForm s.cfg s.latch.frame s.latch.reps hv).1 j hj
  obtain rfl : q = p := by simpa [hq] using hpos
  exact ⟨q, hq, hop, hw⟩

/-- SEND_REPEAT of a command's nibble, with a remote, goes on from its transmit step (R181). -/
theorem sendRepeatOperation_starts {s : State} {cmd : Nibble} {c : Command} (reps : Nat)
    (hc : s.cfg.codes.commandOf cmd = some c) (hr : s.remote.valid = true) :
    sendRepeatOperation cmd reps s = sendRepeatContinue (sendRepeatStart c cmd reps s) := by
  simp [sendRepeatOperation, operandCommand, hc, hr]

/-- Settles O26: the transmit step waits, and both operations then leave it as it is. -/
theorem sendWaitsForTheLine : Obligations.SendWaitsForTheLine := by
  intro s reps j hv h
  constructor
  · intro frame hj
    obtain ⟨p, hpos, hop, hw⟩ := transmit_waits (s := sendStart (Frame.ofBits frame) reps s) hv rfl hj h
    have run : exec (.send frame reps) s = .next ((afterOk ((sendOpsOf s frame reps).take j) []
        (sendStart (Frame.ofBits frame) reps s)).setTx p) := by
      simp only [exec, execSend, sendContinue, hw]
      rfl
    exact ⟨_, run, rfl, rfl, rfl, hpos, hop, rfl, rfl, rfl, rfl, rfl, rfl, rfl,
      { toSendKeeps := by constructor <;> rfl
        rollingCode := rfl
        cmd := rfl
        store := rfl
        storeAnswers := rfl
        storeRsp := rfl }⟩
  · intro cmd c hc hr hj
    obtain ⟨p, hpos, hop, hw⟩ := transmit_waits (s := sendRepeatStart c cmd reps (accept s)) hv rfl hj h
    have run : exec (.sendRepeat cmd reps) s = .next ((afterOk ((repeatOpsOf s c reps).take j) []
        (sendRepeatStart c cmd reps (accept s))).setTx p) := by
      simp only [exec, execSendRepeat, sendRepeatOperation_starts (s := accept s) reps hc hr, sendRepeatContinue, hw]
      rfl
    exact ⟨_, run, rfl, rfl, rfl, hpos, hop, rfl, rfl, rfl, rfl, rfl, rfl, rfl, rfl, rfl, rfl, by constructor <;> rfl⟩

/-! ### The levels of a trace -/

/-- The delay at place `j` of a trace, if it succeeded, with the level that it is held at (R39). -/
def heldAt (level : Level) (entries : List TraceEntry) (j : Nat) : Option (Level × Nat) :=
  match entries[j]? with
  | some (.delay us true) => some (lastLevel level (entries.take j), us)
  | _ => none

theorem lastLevel_set (level l : Level) (ok : Bool) (entries : List TraceEntry) :
    lastLevel level (.set l ok :: entries) = lastLevel (if ok then l else level) entries := by
  cases ok <;> simp [lastLevel, List.findSome?_append]

theorem lastLevel_delay (level : Level) (us : Nat) (ok : Bool) (entries : List TraceEntry) :
    lastLevel level (.delay us ok :: entries) = lastLevel level entries := by
  simp [lastLevel, List.findSome?_append]

theorem heldAt_set_succ (level l : Level) (ok : Bool) (entries : List TraceEntry) (j : Nat) :
    heldAt level (.set l ok :: entries) (j + 1) = heldAt (if ok then l else level) entries j := by
  simp only [heldAt, List.getElem?_cons_succ, List.take_succ_cons, lastLevel_set]

theorem heldAt_delay_succ (level : Level) (us : Nat) (ok : Bool) (entries : List TraceEntry) (j : Nat) :
    heldAt level (.delay us ok :: entries) (j + 1) = heldAt level entries j := by
  simp only [heldAt, List.getElem?_cons_succ, List.take_succ_cons, lastLevel_delay]

/-- The held levels place by place (R39). -/
theorem heldLevels_eq (level : Level) (entries : List TraceEntry) :
    heldLevels level entries = (List.range entries.length).filterMap (heldAt level entries) := by
  induction entries generalizing level with
  | nil => rfl
  | cons e entries ih =>
    rw [List.length_cons, List.range_succ_eq_map, List.filterMap_cons, List.filterMap_map]
    cases e with
    | set l ok =>
      have tail : heldAt level (.set l ok :: entries) ∘ Nat.succ = heldAt (if ok then l else level) entries :=
        funext (heldAt_set_succ level l ok entries)
      rw [tail, ← ih]
      rfl
    | delay us ok =>
      have tail : heldAt level (.delay us ok :: entries) ∘ Nat.succ = heldAt level entries :=
        funext (heldAt_delay_succ level us ok entries)
      rw [tail, ← ih]
      cases ok <;> rfl

/-- The held delays are the successful ones. -/
theorem heldLevels_time (level : Level) (entries : List TraceEntry) :
    ((heldLevels level entries).map Prod.snd).sum = traceTime entries := by
  induction entries generalizing level with
  | nil => rfl
  | cons e entries ih =>
    cases e with
    | set l ok => simp [heldLevels, ih, traceTime]
    | delay us ok => cases ok <;> simp [heldLevels, ih, traceTime]

/-! ### The waveform -/

/-- Runs as a waveform has them: none of no time, no two neighbours of one level (R39). -/
structure Merged (runs : List (Level × Nat)) : Prop where
  timed : ∀ run ∈ runs, run.2 ≠ 0
  alternate : (runs.map Prod.fst).IsChain (· ≠ ·)

/-- One more run in front: it is dropped, lengthens the first run, or stands before it. -/
theorem consRun_cases (run : Level × Nat) (runs : List (Level × Nat)) :
    (run.2 = 0 ∧ consRun run runs = runs)
      ∨ (∃ us more, runs = (run.1, us) :: more ∧ consRun run runs = (run.1, run.2 + us) :: more)
      ∨ (run.2 ≠ 0 ∧ (∀ first ∈ runs.head?, run.1 ≠ first.1) ∧ consRun run runs = run :: runs) := by
  unfold consRun
  by_cases h : run.2 = 0
  · exact .inl ⟨h, by simp [h]⟩
  · cases runs with
    | nil => exact .inr (.inr ⟨h, by simp, by simp [h]⟩)
    | cons first more =>
      obtain ⟨level, us⟩ := first
      by_cases hl : level = run.1
      · subst hl; exact .inr (.inl ⟨us, more, rfl, by simp [h]⟩)
      · exact .inr (.inr ⟨h, by simpa using Ne.symm hl, by simp [h, hl]⟩)

theorem consRun_everyMicrosecond (run : Level × Nat) (runs : List (Level × Nat)) :
    everyMicrosecond (consRun run runs) = List.replicate run.2 run.1 ++ everyMicrosecond runs := by
  rcases consRun_cases run runs with ⟨h, e⟩ | ⟨us, more, rfl, e⟩ | ⟨-, -, e⟩ <;> rw [e]
  · simp [h]
  · simp only [everyMicrosecond, List.flatMap_cons, List.replicate_add, List.append_assoc]
  · simp [everyMicrosecond]

theorem consRun_time (run : Level × Nat) (runs : List (Level × Nat)) :
    ((consRun run runs).map Prod.snd).sum = run.2 + (runs.map Prod.snd).sum := by
  rcases consRun_cases run runs with ⟨h, e⟩ | ⟨us, more, rfl, e⟩ | ⟨-, -, e⟩ <;> rw [e]
  · simp [h]
  · simp [Nat.add_assoc]
  · simp

theorem consRun_merged (run : Level × Nat) {runs : List (Level × Nat)} (h : Merged runs) : Merged (consRun run runs) := by
  rcases consRun_cases run runs with ⟨-, e⟩ | ⟨us, more, rfl, e⟩ | ⟨htime, hlevel, e⟩ <;> rw [e]
  · exact h
  · obtain ⟨hfirst, hmore⟩ := List.forall_mem_cons.1 h.timed
    exact ⟨List.forall_mem_cons.2 ⟨fun hz => hfirst (Nat.add_eq_zero_iff.1 hz).2, hmore⟩, h.alternate⟩
  · refine ⟨List.forall_mem_cons.2 ⟨htime, h.timed⟩, List.isChain_cons.2 ⟨fun l hl => ?_, h.alternate⟩⟩
    rw [List.head?_map] at hl
    obtain ⟨first, hfirst, rfl⟩ := Option.mem_map.1 hl
    exact hlevel first hfirst

/-- Merging a list of runs: the same levels at every microsecond, the same time, and a waveform's form. -/
theorem mergeRuns (runs : List (Level × Nat)) :
    everyMicrosecond (runs.foldr consRun []) = everyMicrosecond runs
      ∧ ((runs.foldr consRun []).map Prod.snd).sum = (runs.map Prod.snd).sum ∧ Merged (runs.foldr consRun []) := by
  induction runs with
  | nil => exact ⟨rfl, rfl, ⟨by simp, .nil⟩⟩
  | cons run runs ih =>
    obtain ⟨hlevels, htime, hmerged⟩ := ih
    refine ⟨?_, ?_, consRun_merged run hmerged⟩
    · rw [List.foldr_cons, consRun_everyMicrosecond, hlevels]; rfl
    · rw [List.foldr_cons, consRun_time, htime]; rfl

/-- Settles O28: the held levels place by place, then merged. -/
theorem waveformMergesEqualLevels : Obligations.WaveformMergesEqualLevels := by
  intro level entries
  obtain ⟨hlevels, htime, hmerged⟩ := mergeRuns (heldLevels level entries)
  exact ⟨heldLevels_eq level entries, hlevels, htime.trans (heldLevels_time level entries), hmerged.timed,
    hmerged.alternate⟩

end Sys2Proof.Machine
end

section
/-!
SUPPORT. The fields of a frame, a SEND_REPEAT that waits for the store, and the inputs that are no step of the core.
-/

namespace Sys2Proof

/-! ### Bits and fields of a frame -/

/-- `FRAME[i] = F[55-8*i : 48-8*i]`, over the index. -/
theorem byte_ofBits (w : FrameBits) {i : Nat} (h : i < 7) : (Frame.ofBits w).byte i = w.extractLsb' (48 - 8 * i) 8 := by
  interval_cases i <;> rfl

/-- Settles O8: the byte is a field of `F`, and its bit a bit of `F`. -/
theorem dataBitIsMostSignificantFirst : Obligations.DataBitIsMostSignificantFirst := by
  refine fun f n hn => ⟨rfl, ?_⟩
  calc f.dataBit n = ((Frame.ofBits f.toBits).byte (n / 8)).getLsbD (7 - n % 8) := by rw [ofBits_toBits]; rfl
    _ = (f.toBits.extractLsb' (48 - 8 * (n / 8)) 8).getLsbD (7 - n % 8) := by rw [byte_ofBits _ (by omega)]
    _ = f.toBits.getLsbD (48 - 8 * (n / 8) + (7 - n % 8)) := by
      rw [BitVec.getLsbD_extractLsb', decide_eq_true (by omega), Bool.true_and]
    _ = f.toBits.getLsbD (55 - n) := by congr 1; omega

namespace Machine

/-- Byte 1 of a plain frame: the command's code, and the checksum where the assembled frame has 0 (R123). -/
theorem plainWithChecksum_b1 (key : Byte) (code : Nibble) (rc : Code) (addr : Addr) :
    hi4 (plainWithChecksum key code rc addr).b1 = code
      ∧ lo4 (plainWithChecksum key code rc addr).b1 = checksum (assemble key code rc addr) := by
  obtain ⟨hi, lo⟩ := or_nibble (joinNibbles code 0) (checksum (assemble key code rc addr)) (lo4_join code 0)
  exact ⟨hi.trans (hi4_join code 0), lo⟩

/-- Settles O9: byte 1 holds the two nibbles, the other bytes are the fields, and the decodes undo the byte orders. -/
theorem plainFrameReadsBack : Obligations.PlainFrameReadsBack := by
  intro key code rc addr
  obtain ⟨hi, lo⟩ := plainWithChecksum_b1 key code rc addr
  exact ⟨rfl, hi, lo, rfl, rfl, rfl, rfl, rfl, joinCode_hi_lo rc, joinAddr_parts addr, by decide⟩

/-! ### SEND_REPEAT that waits for the store -/

/-- The state of SEND_REPEAT when its send is out and the code advanced, at the position `p` (R184, R185). -/
def repeatSent (s : State) (cmd : Nibble) (reps : Nat) (c : Command) (rest : List LineAnswer) (p : TxPos) : State :=
  advanceCode ((afterOk (repeatOpsOf s c reps) rest (sendRepeatStart c cmd reps (accept s))).setTx p)

/-- With every line operation answered, SEND_REPEAT comes to its PERSIST (R186). -/
theorem exec_sendRepeat_sent {s : State} {cmd : Nibble} {reps : Nat} {c : Command} {rest : List LineAnswer}
    (hv : s.cfg.valid = true) (hc : s.cfg.codes.commandOf cmd = some c) (hr : s.remote.valid = true)
    (h : s.env.lineAnswers = allOk (repeatOpsOf s c reps).length ++ rest) :
    ∃ p : TxPos, p.phase = .idle
      ∧ exec (.sendRepeat cmd reps) s = .next (persistContinue (repeatSent s cmd reps c rest p)) := by
  obtain ⟨p, hp, hw⟩ := tx_all (sendRepeatStart c cmd reps (accept s)) hv rfl rest h
  refine ⟨p, hp, ?_⟩
  simp only [exec, execSendRepeat, sendRepeatOperation_starts (s := accept s) reps hc hr, sendRepeatContinue, hw]
  rfl

/-- With no answer of the store the PERSIST waits (R206). -/
theorem persistContinue_waits {s : State} (h : s.env.storeAnswers = []) :
    persistContinue s = { s with activity := .persisting } := by
  simp [persistContinue, h]

/-- Settles O35: the send goes out, then the PERSIST waits in the state that the send left. -/
theorem sendRepeatWaitsForTheStore : Obligations.SendRepeatWaitsForTheStore := by
  intro s cmd reps c rest hv hc hr hline hstore
  obtain ⟨p, hp, run⟩ := exec_sendRepeat_sent hv hc hr hline
  rw [persistContinue_waits (s := repeatSent s cmd reps c rest p) hstore] at run
  exact ⟨_, run, rfl, rfl, rfl, rfl, rfl, rfl, rfl, level_send s.txOut s.cfg (remoteFrame s c) reps, hp, rfl, rfl, rfl,
    hstore, rfl, by constructor <;> rfl⟩

/-! ### Inputs -/

/-- A request that lands comes among those that wait, and no other input but a tick takes one away (R42). -/
theorem landInput_pending {x : Input} {s t : State} (run : landInput x s = .next t) (hx : x ≠ .tick) :
    s.env.pending.Sublist t.env.pending := by
  cases x with
  | tick => exact absurd rfl hx
  | request w place =>
    cases run
    calc s.env.pending = s.env.pending.take place ++ s.env.pending.drop place := (List.take_append_drop ..).symm
      List.Sublist _ (s.env.pending.take place ++ w :: s.env.pending.drop place) :=
        (List.sublist_cons_self w _).append_left _
  | read n => obtain ⟨v, -, rfl⟩ := hostRead_next run; exact .refl _
  | storeEdit table => obtain ⟨-, rfl⟩ := storeEdit_next run; exact .refl _
  | hostAnswer a => cases run; rw [(hostSettle_does a s).1.does.pending]
  | reset | lineAnswer | storeAnswer => cases run; exact .refl _

/-- Settles O58: the block is kept, and the requests that wait are a sublist of those that wait then. -/
theorem inputsDoNotDisturbTheBlock : Obligations.InputsDoNotDisturbTheBlock := by
  intro s t run hl hr
  have kept := step_blockKept run hl hr
  obtain ⟨-, -, lands⟩ := step_next run
  exact ⟨kept.cfg, kept.remote, kept.latch, kept.tx, kept.txOut, kept.status, kept.activity, kept.trace, kept.now,
    kept.draws, landInput_pending (s := (clearPorts s).withInputs s.env.inputs.tail) lands hl⟩

end Machine

end Sys2Proof
end

section
/-!
SUPPORT. The encoding's statements: the code table is a bijection onto 0x1 to 0xA, encode and decode undo each other in the
four formats, the command text, and the operations that a reserved code ends or that four line answers complete.
-/

namespace Sys2Proof

/-! ### The code table and the command text -/

theorem Command.mem_all (c : Command) : c ∈ Command.all := by cases c <;> decide

/-- Ten distinct codes in the range 0x1 to 0xA are all of it (R76). -/
theorem CodeTable.codes_perm {t : CodeTable} (h : t.valid = true) :
    (Command.all.map t.code).Perm [1, 2, 3, 4, 5, 6, 7, 8, 9, 10] := by
  obtain ⟨range, nodup, -⟩ := t.valid_facts h
  have inRange : ∀ n : Nibble, 1 ≤ n ∧ n ≤ 10 → n ∈ ([1, 2, 3, 4, 5, 6, 7, 8, 9, 10] : List Nibble) := by decide
  refine (nodup.subperm fun n hn => ?_).perm_of_length_le (le_refl 10)
  obtain ⟨c, -, rfl⟩ := List.mem_map.1 hn
  exact inRange _ (range c)

/-- A nibble is of no command exactly when it is none of the ten codes (R79). -/
theorem CodeTable.commandOf_eq_none_iff (t : CodeTable) (n : Nibble) :
    t.commandOf n = none ↔ n ∉ Command.all.map t.code := by
  simp [CodeTable.commandOf]

/-- The six reserved nibbles are the ones outside 0x1 to 0xA (R79). -/
theorem CodeTable.commandOf_eq_none_iff_reserved {t : CodeTable} (h : t.valid = true) (n : Nibble) :
    t.commandOf n = none ↔ n = 0 ∨ n = 0xB ∨ n = 0xC ∨ n = 0xD ∨ n = 0xE ∨ n = 0xF := by
  rw [t.commandOf_eq_none_iff, (codes_perm h).mem_iff]
  revert n
  decide

/-- Settles O5: `commandOf` inverts `code`, and is undefined outside the ten codes. -/
theorem commandCodesAreABijection : Obligations.CommandCodesAreABijection := fun t h =>
  ⟨t.commandOf_code h, t.commandOf_some, CodeTable.commandOf_eq_none_iff_reserved h⟩

/-- No two commands share a spelling (R81). -/
theorem Command.text_injective : Function.Injective Command.text := fun c d =>
  List.inj_on_of_nodup_map (by decide : (Command.all.map Command.text).Nodup) c.mem_all d.mem_all

/-- The parsed command has the folded text as its spelling. -/
theorem text_of_parseCommand {text : List Char} {c : Command} (h : parseCommand text = some c) :
    c.text = text.map foldChar := by
  simpa using List.find?_some h

/-- The parser finds a command by its spelling (R82). -/
theorem parseCommand_eq_some_iff (text : List Char) (c : Command) :
    parseCommand text = some c ↔ text.map foldChar = c.text := by
  refine ⟨fun h => (text_of_parseCommand h).symm, fun h => ?_⟩
  cases e : parseCommand text with
  | none => simpa [h] using List.find?_eq_none.1 e c c.mem_all
  | some d => rw [Command.text_injective ((text_of_parseCommand e).trans h)]

/-- Settles O7: the spellings are distinct, so the first that matches is the only one; the examples fold to `up`, or to
no spelling. -/
theorem parsingIsCaseInsensitiveAndTotal : Obligations.ParsingIsCaseInsensitiveAndTotal :=
  ⟨parseCommand_eq_some_iff, by decide, by decide, by decide, by decide⟩

/-! ### Plain frames -/

theorem encode_command (t : CodeTable) (c : Command) (key : Byte) (cs : Nibble) (rc : Code) (addr : Addr) :
    encode t (Instr.command c key cs rc addr) = encodePlain t c key cs rc addr := by
  cases c <;> rfl

/-- A frame is the plain frame of the fields read from it (R70, R132). -/
theorem plainFrame_fields (p : Frame) :
    plainFrame p.b0 (hi4 p.b1) (lo4 p.b1) p.plainCode p.plainAddr = p := by
  simp [plainFrame, Frame.plainCode, Frame.plainAddr]

/-- The nibble of a command decides the decoded instruction (R78). -/
theorem decodePlain_of_commandOf {t : CodeTable} {bits : FrameBits} {c : Command}
    (h : t.commandOf (hi4 (Frame.ofBits bits).b1) = some c) :
    decodePlain t bits = .ok (Instr.command c (Frame.ofBits bits).b0 (lo4 (Frame.ofBits bits).b1)
      (Frame.ofBits bits).plainCode (Frame.ofBits bits).plainAddr) := by
  simp [decodePlain, h]

theorem decode_encodePlain {t : CodeTable} (h : t.valid = true) (c : Command) (key : Byte) (cs : Nibble) (rc : Code)
    (addr : Addr) : decode t (encodePlain t c key cs rc addr) = .ok (Instr.command c key cs rc addr) := by
  simp [encodePlain, decode, decodePlain, plainFrame, Frame.plainCode, Frame.plainAddr, t.commandOf_code h]

/-- Settles O2: a command's plain frame carries its four fields, and every other word its operands. -/
theorem decodeOfEncodeIsTheInstruction : Obligations.DecodeOfEncodeIsTheInstruction := by
  intro t i h
  cases i with
  | my | up | myUp | down | myDown | upDown | myUpDown | prog | sunFlag | flag => exact decode_encodePlain h ..
  | bit1 | bit0 | create | build | send | sendRepeat | load | persist => rfl

theorem encode_of_decodePlain {t : CodeTable} {bits : FrameBits} {i : Instr} (h : decodePlain t bits = .ok i) :
    encode t i = .pf bits := by
  cases hc : t.commandOf (hi4 (Frame.ofBits bits).b1) with
  | none => rw [Machine.decodePlain_reserved hc] at h; cases h
  | some c =>
    rw [decodePlain_of_commandOf hc] at h
    cases h
    rw [encode_command, encodePlain, t.commandOf_some _ c hc, plainFrame_fields, toBits_ofBits]

/-! ### Symbols and the two ports -/

theorem encode_of_decodeSymbol (t : CodeTable) {pulses : BitVec 2} {i : Instr} (h : decodeSymbol pulses = .ok i) :
    encode t i = .ms pulses := by
  unfold decodeSymbol at h
  split_ifs at h with h1 h0
  · cases h; rw [h1]; rfl
  · cases h; rw [h0]; rfl

/-- The word encoded carries the select and the operands that the operation uses (R42, R88). -/
theorem encode_of_decodeHost (t : CodeTable) {h : HostWord} {i : Instr} (hd : decodeHost h = .ok i) :
    ∃ h', encode t i = .ho h' ∧ h'.opSel = h.opSel ∧ decodeHost h' = .ok i := by
  unfold decodeHost at hd
  split_ifs at hd with hs hs hs hs <;> cases hd <;> rw [hs] <;> exact ⟨_, rfl, rfl, rfl⟩

/-- The word encoded carries `st_op`, and for PERSIST its operands (R90). -/
theorem encode_of_decodeStore (t : CodeTable) {op : BitVec 1} {addr : Addr} {rc : Code} {i : Instr}
    (h : decodeStore op addr rc = .ok i) :
    ∃ addr' rc', encode t i = .st op addr' rc' ∧ decodeStore op addr' rc' = .ok i := by
  rcases BitVec.eq_zero_or_eq_one op with rfl | rfl <;> cases h <;> exact ⟨_, _, rfl, rfl⟩

/-- Settles O3: one format at a time. -/
theorem encodeOfDecodeIsTheWord : Obligations.EncodeOfDecodeIsTheWord := by
  intro t w i h
  cases w with
  | pf bits => exact encode_of_decodePlain h
  | ms pulses => exact encode_of_decodeSymbol t h
  | ho w =>
    obtain ⟨w', he, hs, hd⟩ := encode_of_decodeHost t h
    exact ⟨w', he, hs, hd.trans h.symm⟩
  | st op addr rc =>
    obtain ⟨addr', rc', he, hd⟩ := encode_of_decodeStore t h
    exact ⟨addr', rc', he, hd.trans h.symm⟩

/-! ### The command of a plain frame, and words written out -/

/-- A nibble can be read off its place in bits 47:44. -/
theorem nibble_at_47_44_inj : ∀ m n : Nibble, m.setWidth 56 <<< 44 = n.setWidth 56 <<< 44 → m = n := by decide

/-- Settles O4: the masked bits are the command nibble, and a decoded frame is the one its command encodes to. -/
theorem plainFrameCommandIsBits47To44 : Obligations.PlainFrameCommandIsBits47To44 := by
  intro t bits c hv
  have mask : (0xF#56 <<< 44 : FrameBits) = 0x00F00000000000#56 := by decide
  rw [mask]
  constructor
  · rintro ⟨key, cs, rc, addr, h⟩
    have he := encode_of_decodePlain h
    rw [encode_command] at he
    cases he
    exact Laws.EncodeMatchesTable.masked_plainFrame key (t.code c) cs rc addr
  · intro h
    rw [masked_bits] at h
    have hn : hi4 (Frame.ofBits bits).b1 = t.code c := nibble_at_47_44_inj _ _ h
    exact ⟨_, _, _, _, decodePlain_of_commandOf (hn ▸ t.commandOf_code hv c)⟩

/-- Settles O1: each word, evaluated. -/
theorem wordsOfTheSpecDecode : Obligations.WordsOfTheSpecDecode :=
  ⟨by decide, by decide, rfl, rfl, rfl, rfl, rfl, rfl⟩

namespace Machine

/-- The command nibble enters the checksum by XOR (R122). -/
theorem checksum_assemble (key : Byte) (n : Nibble) (rc : Code) (addr : Addr) :
    checksum (assemble key n rc addr) = n ^^^ checksum (assemble key 0 rc addr) := by
  simp only [checksum, nibbleXor_eq, assemble, plainFrame, hi4_join, lo4_join]
  ac_rfl

/-- Settles O6: the thirteen other nibbles give 5, and `n ^^^ 5 = 7` fixes `n`. -/
theorem upIsCodeTwo : Obligations.UpIsCodeTwo := by
  have h5 : checksum (assemble 0xA7 0 42 0xFFAA11) = 5 := by decide
  have key : ∀ n : Nibble, n ^^^ 5 = 7 ↔ n = 2 := by decide
  exact ⟨h5, fun n => by rw [checksum_assemble, h5, key], fun t h => (t.valid_facts h).2.2⟩

/-! ### Reserved codes, and a symbol that completes -/

theorem buildOperation_reserved {s : State} {cmd : Nibble} (key : Byte) (rc : Code) (addr : Addr)
    (h : s.cfg.codes.commandOf cmd = none) : buildOperation key cmd rc addr s = raise .unknownCommandError s := by
  simp [buildOperation, operandCommand, h]

theorem sendRepeatOperation_reserved {s : State} {cmd : Nibble} (reps : Nat)
    (h : s.cfg.codes.commandOf cmd = none) : sendRepeatOperation cmd reps s = raise .unknownCommandError s := by
  simp [sendRepeatOperation, operandCommand, h]

/-- Settles O14: the nibble is of no command, and both operations test it first. -/
theorem reservedNibbleIsUnknownCommand : Obligations.ReservedNibbleIsUnknownCommand := by
  intro s cmd hv hcmd
  have hn : s.cfg.codes.commandOf cmd = none := (CodeTable.commandOf_eq_none_iff_reserved hv cmd).2 hcmd
  refine ⟨fun c hc => ?_, fun key rc addr => ?_, fun reps => ?_⟩
  · subst hc
    simp [CodeTable.commandOf_code _ hv] at hn
  · rw [exec, execBuild, buildOperation_reserved (s := accept s) key rc addr hn, raise_accept]
  · rw [exec, execSendRepeat, sendRepeatOperation_reserved (s := accept s) reps hn, raise_accept]

/-- The four selects of no operation (R88, R89). -/
theorem decodeHost_reserved {h : HostWord}
    (hs : h.opSel = 0b000 ∨ h.opSel = 0b101 ∨ h.opSel = 0b110 ∨ h.opSel = 0b111) :
    decodeHost h = .error .reservedOpSel := by
  rcases hs with hs | hs | hs | hs <;> simp [decodeHost, hs]

/-- Settles O18: the word taken is rejected by the decoder, and the rejection is an error of the operation. -/
theorem reservedOpSelIsIllegalOperation : Obligations.ReservedOpSelIsIllegalOperation := by
  intro s h hv hw ha hs
  rw [step_accepting hv hw ha, runWord, decode, decodeHost_reserved hs]
  rfl

theorem exec_symbol (b : Bool) (s : State) :
    exec (if b then .bit1 else .bit0) s = .next (symbolContinue (bitOps s.cfg b) s) := by
  cases b <;> rfl

/-- A symbol whose operations all succeed frees the line (R35). -/
theorem symbolContinue_all_ok {ops : List LineOp} {rest : List LineAnswer} {s : State}
    (h : s.env.lineAnswers = allOk ops.length ++ rest) :
    symbolContinue ops s =
      { afterOk ops rest s with status := { s.status with busy := false }, activity := .idle } := by
  simp only [symbolContinue, performOps_all_ok ops rest s h]
  rfl

/-- Settles O29: the four operations of the bit, performed whole. -/
theorem symbolsComplete : Obligations.SymbolsComplete := by
  intro s b rest h
  rw [exec_symbol, symbolContinue_all_ok (ops := bitOps s.cfg b) h]
  simp [afterOk, bitOps, pulse, levelAfter, LineOp.entry, LineOp.time, Nat.add_assoc]

end Machine

end Sys2Proof
end

section
/-!
SUPPORT. The commands' statement: a command's plain frame is built by the operation of BUILD with the command's code, and
a nibble of the table completes.
-/

namespace Sys2Proof.Machine

/-- The ten commands are one operation, and the checksum nibble of the word is not read (R110, log 13). -/
theorem exec_command (c : Command) (key : Byte) (cs : Nibble) (rc : Code) (addr : Addr) (s : State) :
    exec (Instr.command c key cs rc addr) s = .next (commandOperation c key rc addr s) := by
  cases c <;> rfl

/-- A nibble of the table passes the test, and the frame is built and presented (R79, R120). -/
theorem buildOperation_command {s : State} {cmd : Nibble} {c : Command} (key : Byte) (rc : Code) (addr : Addr)
    (h : s.cfg.codes.commandOf cmd = some c) :
    buildOperation key cmd rc addr s =
      complete .ok (some (build s.cfg.codes key c rc addr))
        { s with latch := { s.latch with cmd := cmd, frame := build s.cfg.codes key c rc addr } } := by
  simp [buildOperation, operandCommand, h]

/-- Settles O15: a command runs BUILD's operation, whose nibble test passes since the code of a command decodes to it;
completion writes over the flags of the acceptance. -/
theorem commandsBuildTheirFrame : Obligations.CommandsBuildTheirFrame := by
  intro c s key cs rc addr hv
  have hc : (accept s).cfg.codes.commandOf (s.cfg.codes.code c) = some c := s.cfg.codes.commandOf_code hv c
  rw [exec_command, commandOperation]
  refine ⟨rfl, ?_⟩
  rw [buildOperation_command key rc addr hc]
  rfl

end Sys2Proof.Machine
end

section
/-!
SUPPORT. The codec's statements: the checksum closes a plain frame, whitening is a running XOR that de-whitening undoes,
and BUILD with a nibble of the table completes.
-/

namespace Sys2Proof.Machine

/-! ### The checksum -/

/-- The checksum place enters the fold by XOR: the other thirteen nibbles, then the low nibble of byte 1 (R122). -/
theorem nibbleXor_eq_checksum_xor (p : Frame) :
    nibbleXor p = checksum { p with b1 := joinNibbles (hi4 p.b1) 0 } ^^^ lo4 p.b1 := by
  simp only [checksum, nibbleXor_eq, hi4_join, lo4_join]
  ac_rfl

/-- Recomputing and comparing is the XOR of all fourteen nibbles (R124). -/
theorem checksumHolds_iff (p : Frame) : checksumHolds p = true ↔ nibbleXor p = 0 := by
  rw [nibbleXor_eq_checksum_xor, checksumHolds, beq_iff_eq]
  exact BitVec.xor_eq_zero_iff.symm

/-- Byte 1 of a plain frame, with its two nibbles joined (R123). -/
theorem plainWithChecksum_eq (key : Byte) (code : Nibble) (rc : Code) (addr : Addr) :
    plainWithChecksum key code rc addr
      = { assemble key code rc addr with b1 := joinNibbles code (checksum (assemble key code rc addr)) } := by
  obtain ⟨hi, lo⟩ := plainWithChecksum_b1 key code rc addr
  have b1 := join_hi_lo (plainWithChecksum key code rc addr).b1
  rw [hi, lo] at b1
  rw [b1]
  rfl

/-- The codec's frame passes the check: with the checksum place taken as zero it is the assembled frame (R124). -/
theorem checksumHolds_plainWithChecksum (key : Byte) (code : Nibble) (rc : Code) (addr : Addr) :
    checksumHolds (plainWithChecksum key code rc addr) = true := by
  rw [plainWithChecksum_eq, checksumHolds, beq_iff_eq, hi4_join, lo4_join]
  rfl

/-- Settles O10: the check of the checksum is the XOR being 0, and the codec's frame passes it. -/
theorem checksumClosesTheFrame : Obligations.ChecksumClosesTheFrame :=
  ⟨checksumHolds_iff, fun key code rc addr =>
    have holds := checksumHolds_plainWithChecksum key code rc addr
    ⟨holds, (checksumHolds_iff _).1 holds⟩⟩

/-! ### Whitening -/

/-- Each byte is whitened with its whitened predecessor (R125), over the index. -/
theorem whiten_byte_succ (p : Frame) {i : Nat} (h : i < 6) :
    (whiten p).byte (i + 1) = p.byte (i + 1) ^^^ (whiten p).byte i := by
  interval_cases i <;> rfl

/-- The XOR of the bytes 0 to `n` takes in byte `n` last. -/
theorem foldl_xor_take_succ (p : Frame) {n : Nat} (h : n < 7) :
    (p.bytes.take (n + 1)).foldl (· ^^^ ·) 0 = (p.bytes.take n).foldl (· ^^^ ·) 0 ^^^ p.byte n := by
  have hn : n < p.bytes.length := h
  rw [List.take_succ_eq_append_getElem hn, List.foldl_append, Frame.byte, List.getD_eq_getElem _ _ hn]
  rfl

/-- The whitened byte `i` is the running XOR of the plain bytes (R126). -/
theorem whiten_byte_eq_foldl (p : Frame) {i : Nat} (h : i < 7) :
    (whiten p).byte i = (p.bytes.take (i + 1)).foldl (· ^^^ ·) 0 := by
  induction i with
  | zero => exact (BitVec.zero_xor ..).symm
  | succ i ih =>
    rw [whiten_byte_succ p (by omega), foldl_xor_take_succ p h, ih (by omega), BitVec.xor_comm]

/-- Whitening undoes de-whitening (R128). -/
theorem whiten_dewhiten (w : Frame) : whiten (dewhiten w) = w := by
  simp only [whiten, dewhiten, xor_cancel]

theorem whiten_bijective : Function.Bijective whiten :=
  ⟨Function.LeftInverse.injective dewhiten_whiten, Function.RightInverse.surjective whiten_dewhiten⟩

/-- Settles O11: the running XOR by induction on the index, and de-whitening is the inverse. -/
theorem whiteningClosedForm : Obligations.WhiteningClosedForm :=
  ⟨fun p _ h => whiten_byte_eq_foldl p h, whiten_bijective, fun _ => rfl⟩

/-- Whitening twice leaves each byte with every second one before it (R128): de-whitening that frame gives the bytes of
`whiten p`, only in another order. -/
theorem whiten_whiten (p : Frame) :
    whiten (whiten p) =
      { b0 := p.b0
        b1 := p.b1
        b2 := p.b2 ^^^ p.b0
        b3 := p.b3 ^^^ p.b1
        b4 := p.b4 ^^^ p.b2 ^^^ p.b0
        b5 := p.b5 ^^^ p.b3 ^^^ p.b1
        b6 := p.b6 ^^^ p.b4 ^^^ p.b2 ^^^ p.b0 } := by
  rw [← whiten_dewhiten (Frame.mk ..)]
  congr 1
  simp only [whiten, dewhiten]
  ac_rfl

/-- The bytes 2 to 6 are kept exactly when what a double whitening adds to each is 0 (R128). -/
theorem whiten_whiten_eq_self_iff (p : Frame) :
    whiten (whiten p) = p ↔ p.b0 = 0 ∧ p.b1 = 0 ∧ p.b2 = 0 ∧ p.b3 = 0 ∧ p.b4 = 0 := by
  obtain ⟨b0, b1, b2, b3, b4, b5, b6⟩ := p
  rw [whiten_whiten]
  calc _ ↔ b0 = 0 ∧ b1 = 0 ∧ b2 ^^^ b0 = 0 ∧ b3 ^^^ b1 = 0 ∧ b4 ^^^ (b2 ^^^ b0) = 0 := by
        simp only [Frame.mk.injEq, true_and, BitVec.xor_assoc, xor_left_eq_self_iff]
    _ ↔ _ := by simp +contextual

/-- Settles O12: the two inverse laws, and the bytes of a double whitening. -/
theorem dewhiteningInvertsWhitening : Obligations.DewhiteningInvertsWhitening :=
  ⟨dewhiten_whiten, whiten_dewhiten, whiten_whiten, whiten_whiten_eq_self_iff, xor_cancel⟩

/-! ### BUILD -/

/-- Settles O13: the codec's stages, and BUILD's nibble test passes; completion writes over the flags of the acceptance. -/
theorem buildCompletes : Obligations.BuildCompletes := by
  refine ⟨plainWithChecksum_eq, fun _ _ _ _ _ => ⟨rfl, dewhiten_whiten _⟩, fun s key cmd rc addr c hc => ?_⟩
  rw [exec, execBuild, buildOperation_command (s := accept s) key rc addr hc]
  rfl

end Sys2Proof.Machine
end

section
/-!
SUPPORT. The transmitter's statements: the size of a send, SEND against its list form, to its end or to the first
failure, the line after an abort, answers that come later, and the Manchester symbols.
-/

namespace Sys2Proof.Machine

/-! ### The size of a list of pulses -/

theorem duration_flatten (opss : List (List LineOp)) : duration opss.flatten = (opss.map duration).sum := by
  induction opss with
  | nil => rfl
  | cons ops opss ih => simp [ih]

@[simp] theorem length_bitOps (c : Config) (b : Bool) : (bitOps c b).length = 4 := rfl

@[simp] theorem duration_bitOps (c : Config) (b : Bool) : duration (bitOps c b) = 2 * c.tHalf := by
  simp [bitOps, pulse, LineOp.time, Nat.two_mul]

@[simp] theorem length_payloadOps (c : Config) (f : Frame) : (payloadOps c f).length = 224 := by
  simp [payloadOps, List.length_flatten, Function.comp_def]

@[simp] theorem duration_payloadOps (c : Config) (f : Frame) : duration (payloadOps c f) = 112 * c.tHalf := by
  simp only [payloadOps, duration_flatten, List.map_map, Function.comp_def, duration_bitOps, List.map_const',
    List.length_range, List.sum_replicate, smul_eq_mul]
  omega

/-- In a list of blocks of one length, place `i` of block `n`. -/
theorem getElem?_flatten_blocks {α : Type} {block : Nat → List α} {len : Nat} (hlen : ∀ n, (block n).length = len)
    {m n i : Nat} (hn : n < m) (hi : i < len) :
    ((List.range m).map block).flatten[len * n + i]? = (block n)[i]? := by
  induction m with
  | zero => exact absurd hn (Nat.not_lt_zero n)
  | succ m ih =>
    have front : ((List.range m).map block).flatten.length = len * m := by
      simp [List.length_flatten, Function.comp_def, hlen, Nat.mul_comm]
    rw [List.range_succ, List.map_append, List.flatten_append]
    rcases Nat.lt_succ_iff_lt_or_eq.1 hn with hlt | rfl
    · have hle : len * (n + 1) ≤ len * m := Nat.mul_le_mul_left len hlt
      rw [List.getElem?_append_left (by rw [front]; rw [Nat.mul_succ] at hle; omega), ih hlt]
    · rw [List.getElem?_append_right (by omega), front, Nat.add_sub_cancel_left]
      simp

/-- Operation `i` of data bit `n` of the payload (R154). -/
theorem payloadOps_getElem? (c : Config) (f : Frame) {n i : Nat} (hn : n < 56) (hi : i < 4) :
    (payloadOps c f)[4 * n + i]? = (bitOps c (f.dataBit n))[i]? :=
  getElem?_flatten_blocks (fun _ => length_bitOps c _) hn hi

/-- Settles O19: data bit `n` is the four operations from `4 * n` on. -/
theorem payloadIsManchesterCoded : Obligations.PayloadIsManchesterCoded := by
  intro c f
  refine ⟨length_payloadOps c f, duration_payloadOps c f, fun n hn => ⟨?_, ?_, ?_, ?_⟩⟩
  · exact payloadOps_getElem? c f hn (i := 0) (by decide)
  · exact payloadOps_getElem? c f hn (i := 1) (by decide)
  · exact payloadOps_getElem? c f hn (i := 2) (by decide)
  · exact payloadOps_getElem? c f hn (i := 3) (by decide)

@[simp] theorem length_hwsyncOps (c : Config) (n : Nat) : (hwsyncOps c n).length = 4 * n := by
  simp [hwsyncOps, pulse, Nat.mul_comm]

@[simp] theorem duration_hwsyncOps (c : Config) (n : Nat) : duration (hwsyncOps c n) = 2 * n * c.tHwsync := by
  simp [hwsyncOps, duration_flatten, pulse, LineOp.time]
  ring

/-- The number of line operations of frame `k` (R157). -/
theorem length_frameOps (c : Config) (f : Frame) (k : Nat) :
    (frameOps c f k).length = (if k = 0 then 4 else 0) + 4 * npairs c k + 230 := by
  by_cases hk : k = 0
  · simp [frameOps, hk, wakeupOps, swsyncOps, gapOps, pulse]; omega
  · simp [frameOps, hk, swsyncOps, gapOps, pulse]

/-- The duration of frame `k` (R157). -/
theorem duration_frameOps (c : Config) (f : Frame) (k : Nat) :
    duration (frameOps c f k) = (if k = 0 then c.tWakeHigh + c.tWakeLow else 0) + 2 * npairs c k * c.tHwsync
      + c.tSwsyncHigh + 113 * c.tHalf + c.tGap := by
  by_cases hk : k = 0
  · simp [frameOps, hk, wakeupOps, swsyncOps, gapOps, pulse, LineOp.time]; omega
  · simp [frameOps, hk, swsyncOps, gapOps, pulse, LineOp.time]; omega

@[simp] theorem sendOps_zero (c : Config) (f : Frame) : sendOps c f 0 = frameOps c f 0 := by simp [sendOps]

/-- One more repetition is one more frame at the end (R161). -/
theorem sendOps_succ (c : Config) (f : Frame) (reps : Nat) :
    sendOps c f (reps + 1) = sendOps c f reps ++ frameOps c f (reps + 1) := by
  simp [sendOps, List.range_succ]

/-- Settles O20: frame 0 with its wake-up, then frame by frame. -/
theorem sizeOfASend : Obligations.SizeOfASend := by
  intro c f reps
  induction reps with
  | zero => simp [length_frameOps, duration_frameOps, npairs]; omega
  | succ reps ih =>
    obtain ⟨hlength, hduration⟩ := ih
    have hpairs : npairs c (reps + 1) = c.nSyncRepeat := rfl
    rw [sendOps_succ, List.length_append, duration_append, hlength, hduration, length_frameOps, duration_frameOps,
      hpairs]
    simp only [Nat.succ_ne_zero, if_false, Nat.add_mul, Nat.one_mul]
    omega

/-! ### SEND against its list form -/

theorem exec_send (s : State) (frame : FrameBits) (reps : Nat) :
    exec (.send frame reps) s = .next (sendContinue (sendStart (Frame.ofBits frame) reps s)) := rfl

/-- Settles O22: the transmit step ends, fails or waits as the list does, and the end of SEND does not look at the
position. -/
theorem sendRefinesItsListForm : Obligations.SendRefinesItsListForm := by
  intro s frame reps hv
  refine ⟨_, exec_send s frame reps, ?_⟩
  have key := tx_start (sendStart (Frame.ofBits frame) reps s) s.cfg (Frame.ofBits frame) reps hv rfl rfl rfl rfl
  rw [sendContinue, sendOpsOf]
  cases hl : performOps (sendOps s.cfg (Frame.ofBits frame) reps) (sendStart (Frame.ofBits frame) reps s) with
  | done u =>
    rw [hl] at key
    obtain ⟨t, run, -, eq⟩ := key
    rw [run]
    exact congrArg (complete .ok none) eq
  | failed u =>
    rw [hl] at key
    obtain ⟨t, run, eq⟩ := key
    rw [run]
    exact congrArg (complete .transmitError none) eq
  | waiting left u =>
    rw [hl] at key
    obtain ⟨t, run, eq, -⟩ := key
    rw [run]
    exact eq

/-! ### What SEND keeps -/

theorem LineKeeps.sendOnlyKeeps {s t : State} (h : LineKeeps s t) : SendOnlyKeeps s t where
  cfg := h.cfg
  key := by rw [h.remote]
  address := by rw [h.remote]
  valid := by rw [h.remote]
  draws := h.draws
  inputs := h.inputs
  pending := h.pending
  hostTxns := h.hostTxns
  hostAnswers := h.hostAnswers
  rdData := by rw [h.ports]
  hostStoreRsp := by rw [h.ports]
  rollingCode := by rw [h.remote]
  cmd := by rw [h.latch]
  store := h.store
  storeAnswers := h.storeAnswers
  storeRsp := by rw [h.ports]

theorem SendOnlyKeeps.complete {s t : State} (h : SendOnlyKeeps s t) (code : ResultCode) (frame : Option Frame) :
    SendOnlyKeeps s (complete code frame t) := { h with }

theorem SendOnlyKeeps.raise {s t : State} (h : SendOnlyKeeps s t) (code : ResultCode) :
    SendOnlyKeeps s (raise code t) := { h with }

/-- Whatever the line answers, SEND leaves the rest alone (R170, R194). -/
theorem sendContinue_keeps (s : State) : SendOnlyKeeps s (sendContinue s) := by
  have key := txRun_cases s.env.lineAnswers s
  unfold sendContinue transmit
  cases h : txRun s.env.lineAnswers s with
  | done t => rw [h] at key; exact key.1.sendOnlyKeeps.complete _ _
  | failed t => rw [h] at key; exact key.sendOnlyKeeps.raise _
  | waiting t => rw [h] at key; exact key.1.sendOnlyKeeps

theorem exec_send_keeps {s t : State} {frame : FrameBits} {reps : Nat} (h : exec (.send frame reps) s = .next t) :
    SendOnlyKeeps s t := by
  cases h
  exact { sendContinue_keeps (sendStart (Frame.ofBits frame) reps s) with }

/-! ### SEND to its end, or to its first failure -/

/-- Settles O23: the transmit step performs the whole list, and completion leaves the line as it is. -/
theorem sendCompletes : Obligations.SendCompletes := by
  intro s frame reps rest hv h
  obtain ⟨p, hp, hw⟩ := tx_all (sendStart (Frame.ofBits frame) reps s) hv rfl rest h
  have run : exec (.send frame reps) s = .next (complete .ok none ((afterOk (sendOpsOf s frame reps) rest
      (sendStart (Frame.ofBits frame) reps s)).setTx p)) := by
    rw [exec_send, sendContinue, hw]
    rfl
  exact ⟨_, run, rfl, rfl, level_send s.txOut s.cfg (Frame.ofBits frame) reps, hp, rfl, rfl, rfl, rfl, rfl, rfl,
    exec_send_keeps run⟩

/-- The state in which operation `op` has failed after the operations `before` succeeded (R165, R168). -/
def afterFail (before : List LineOp) (op : LineOp) (reached : Bool) (spent : Nat) (rest : List LineAnswer) (s : State) :
    State :=
  performOp op (.fail reached spent) (afterOk before rest s)

/-- A failure in SEND ends it there (R165). -/
theorem exec_send_fails {s : State} {frame : FrameBits} {reps j : Nat} {op : LineOp} {reached : Bool} {spent : Nat}
    {rest : List LineAnswer} (hv : s.cfg.valid = true) (hop : (sendOpsOf s frame reps)[j]? = some op)
    (h : s.env.lineAnswers = allOk j ++ .fail reached spent :: rest) :
    ∃ p, exec (.send frame reps) s = .next (raise .transmitError ((afterFail ((sendOpsOf s frame reps).take j) op
      reached spent rest (sendStart (Frame.ofBits frame) reps s)).setTx p)) := by
  obtain ⟨p, hw⟩ := tx_fail (sendStart (Frame.ofBits frame) reps s) hv rfl j op reached spent rest hop h
  refine ⟨p, ?_⟩
  rw [exec_send, sendContinue, hw]
  rfl

theorem exec_sendRepeat_starts {s : State} {cmd : Nibble} {c : Command} (reps : Nat)
    (hc : s.cfg.codes.commandOf cmd = some c) (hr : s.remote.valid = true) :
    exec (.sendRepeat cmd reps) s = .next (sendRepeatContinue (sendRepeatStart c cmd reps (accept s))) := by
  rw [exec, execSendRepeat, sendRepeatOperation_starts (s := accept s) reps hc hr]

/-- A failure in the transmit step of SEND_REPEAT ends it there (R165, R184). -/
theorem exec_sendRepeat_fails {s : State} {cmd : Nibble} {c : Command} {reps j : Nat} {op : LineOp} {reached : Bool}
    {spent : Nat} {rest : List LineAnswer} (hv : s.cfg.valid = true) (hc : s.cfg.codes.commandOf cmd = some c)
    (hr : s.remote.valid = true) (hop : (repeatOpsOf s c reps)[j]? = some op)
    (h : s.env.lineAnswers = allOk j ++ .fail reached spent :: rest) :
    ∃ p, exec (.sendRepeat cmd reps) s = .next (raise .transmitError ((afterFail ((repeatOpsOf s c reps).take j) op
      reached spent rest (sendRepeatStart c cmd reps (accept s))).setTx p)) := by
  obtain ⟨p, hw⟩ := tx_fail (sendRepeatStart c cmd reps (accept s)) hv rfl j op reached spent rest hop h
  refine ⟨p, ?_⟩
  rw [exec_sendRepeat_starts reps hc hr, sendRepeatContinue, hw]
  rfl

theorem afterFail_trace (before : List LineOp) (op : LineOp) (reached : Bool) (spent : Nat) (rest : List LineAnswer)
    (s : State) : (afterFail before op reached spent rest s).trace = s.trace ++ okTrace before ++ [op.entry false] := by
  simp [afterFail, afterOk, LineAnswer.isOk]

@[simp] theorem afterFail_latch (before : List LineOp) (op : LineOp) (reached : Bool) (spent : Nat)
    (rest : List LineAnswer) (s : State) : (afterFail before op reached spent rest s).latch = s.latch := by
  simp [afterFail, afterOk]

@[simp] theorem afterFail_env (before : List LineOp) (op : LineOp) (reached : Bool) (spent : Nat)
    (rest : List LineAnswer) (s : State) :
    (afterFail before op reached spent rest s).env = { s.env with lineAnswers := rest } := by
  simp [afterFail, afterOk]

/-- Settles O24: the transmit step stops at the failure, and `raise` keeps what was written. -/
theorem sendAbortsAtTheFirstFailure : Obligations.SendAbortsAtTheFirstFailure := by
  intro s frame reps j op reached spent rest hv hop h
  obtain ⟨p, run⟩ := exec_send_fails hv hop h
  exact ⟨_, run, afterFail_trace .., rfl, rfl, rfl, by simp [sendStart], by simp [sendStart], by simp [sendStart],
    by simp, exec_send_keeps run⟩

/-! ### The line after an abort -/

/-- What the failure of an operation leaves of the line and of the time, after the operations `before` succeeded: `t`
against the state `s` before them (R168, U3, U4; log 8). -/
def LineLeft (s t : State) (before : List LineOp) : LineOp → Prop
  | .delay us =>
    t.txOut = levelAfter s.txOut before ∧ s.now + duration before ≤ t.now ∧ t.now ≤ s.now + duration before + us
  | .set level => (t.txOut = levelAfter s.txOut before ∨ t.txOut = level) ∧ t.now = s.now + duration before

theorem afterFail_lineLeft (before : List LineOp) (op : LineOp) (reached : Bool) (spent : Nat) (rest : List LineAnswer)
    (s : State) : LineLeft s (afterFail before op reached spent rest s) before op := by
  cases op with
  | delay us => exact ⟨rfl, Nat.le_add_right _ _, Nat.add_le_add_left (Nat.min_le_right spent us) _⟩
  | set level =>
    cases reached with
    | false => exact ⟨.inl rfl, rfl⟩
    | true => exact ⟨.inr rfl, rfl⟩

/-- Settles O25: `raise` cleans nothing up, and the start of either operation does not touch the line. -/
theorem abortLeavesTheLine : Obligations.AbortLeavesTheLine := by
  rintro s t reps j ops op reached spent rest hv hop h (⟨frame, rfl, run⟩ | ⟨cmd, c, rfl, hc, hr, run⟩)
  · obtain ⟨p, fails⟩ := exec_send_fails hv hop h
    rw [fails] at run
    cases run
    exact afterFail_lineLeft _ op reached spent rest (sendStart (Frame.ofBits frame) reps s)
  · obtain ⟨p, fails⟩ := exec_sendRepeat_fails hv hc hr hop h
    rw [fails] at run
    cases run
    exact afterFail_lineLeft _ op reached spent rest (sendRepeatStart c cmd reps (accept s))

/-! ### Answers that come later -/

/-- A transmit step that waits does with later answers what it does with those answers there (R141, R163). -/
theorem transmit_later {s t : State} (later : List LineAnswer) (h : transmit s = .waiting t) :
    transmit (s.withLineAnswers (s.env.lineAnswers ++ later)) = transmit (t.withLineAnswers later) :=
  calc txRun (s.env.lineAnswers ++ later) (s.withLineAnswers (s.env.lineAnswers ++ later))
      = txRun (s.env.lineAnswers ++ later) s := txRun_withLineAnswers ..
    _ = txRun later t := txRun_append _ _ s t h
    _ = txRun later (t.withLineAnswers later) := (txRun_withLineAnswers ..).symm

/-- SEND stands at its transmit step only if the line has not answered. -/
theorem sendContinue_sending {s : State} (h : (sendContinue s).activity = .sending) :
    transmit s = .waiting (sendContinue s) := by
  unfold sendContinue at h ⊢
  cases hw : transmit s with
  | done t | failed t => rw [hw] at h; cases h
  | waiting t => rfl

/-- From its transmit step on SEND looks at the state through that step alone. -/
theorem sendContinue_congr {s t : State} (h : transmit s = transmit t) : sendContinue s = sendContinue t := by
  rw [sendContinue, sendContinue, h]

/-- SEND that waits does with later answers what it does with those answers there. -/
theorem sendContinue_later {s : State} (later : List LineAnswer) (h : (sendContinue s).activity = .sending) :
    sendContinue (s.withLineAnswers (s.env.lineAnswers ++ later))
      = sendContinue ((sendContinue s).withLineAnswers later) :=
  sendContinue_congr (transmit_later later (sendContinue_sending h))

theorem persistContinue_activity (s : State) :
    ((persistContinue s).activity = .persisting ∧ s.env.storeAnswers = [])
      ∨ (persistContinue s).activity = .idle := by
  obtain ⟨-, -, -, -, ⟨e, hs⟩ | ⟨e, -⟩⟩ := persistContinue_does s
  · exact .inl ⟨by rw [e], hs⟩
  · exact .inr e

/-- SEND_REPEAT stands at its transmit step only if the line has not answered. -/
theorem sendRepeatContinue_sendRepeating {s : State} (h : (sendRepeatContinue s).activity = .sendRepeating) :
    transmit s = .waiting (sendRepeatContinue s) := by
  unfold sendRepeatContinue at h ⊢
  cases hw : transmit s with
  | done t =>
    rw [hw] at h
    rcases persistContinue_activity (advanceCode t) with ⟨e, -⟩ | e <;> rw [e] at h <;> cases h
  | failed t => rw [hw] at h; cases h
  | waiting t => rfl

/-- From its transmit step on SEND_REPEAT looks at the state through that step alone. -/
theorem sendRepeatContinue_congr {s t : State} (h : transmit s = transmit t) :
    sendRepeatContinue s = sendRepeatContinue t := by
  rw [sendRepeatContinue, sendRepeatContinue, h]

/-- SEND_REPEAT that waits for the line does with later answers what it does with those answers there. -/
theorem sendRepeatContinue_later {s : State} (later : List LineAnswer)
    (h : (sendRepeatContinue s).activity = .sendRepeating) :
    sendRepeatContinue (s.withLineAnswers (s.env.lineAnswers ++ later))
      = sendRepeatContinue ((sendRepeatContinue s).withLineAnswers later) :=
  sendRepeatContinue_congr (transmit_later later (sendRepeatContinue_sendRepeating h))

theorem performOp_withStoreAnswers (op : LineOp) (a : LineAnswer) (s : State) (xs : List StoreAnswer) :
    performOp op a (s.withStoreAnswers xs) = (performOp op a s).withStoreAnswers xs := by
  cases op <;> cases a <;> rfl

/-- A send that completes does not look at the answers of the store. -/
theorem txRun_done_withStoreAnswers {as : List LineAnswer} {s t : State} (xs : List StoreAnswer)
    (h : txRun as s = .done t) : txRun as (s.withStoreAnswers xs) = .done (t.withStoreAnswers xs) := by
  induction as generalizing s with
  | nil => cases h
  | cons a as ih =>
    simp only [txRun, withStoreAnswers_cfg, withStoreAnswers_latch, withStoreAnswers_tx] at h ⊢
    cases hop : opAt s.cfg s.latch.frame s.tx with
    | none =>
      simp only [hop] at h ⊢
      cases h
      rfl
    | some op =>
      cases a with
      | fail reached spent => simp [hop, LineAnswer.isOk] at h
      | ok =>
        simp only [hop, LineAnswer.isOk, if_true] at h ⊢
        cases hn : nextPos s.cfg s.latch.reps s.tx with
        | none =>
          simp only [hn] at h ⊢
          cases h
          cases op <;> rfl
        | some p =>
          simp only [hn, performOp_withStoreAnswers] at h ⊢
          exact ih h

/-- SEND_REPEAT comes from its transmit step to wait at its PERSIST only if the send is out and the store has not
answered. -/
theorem sendRepeatContinue_persisting {s : State} (ha : s.activity = .sendRepeating)
    (h : (sendRepeatContinue s).activity = .persisting) :
    s.env.storeAnswers = []
      ∧ ∃ t, transmit s = .done t ∧ sendRepeatContinue s = { advanceCode t with activity := .persisting } := by
  have key := txRun_cases s.env.lineAnswers s
  unfold sendRepeatContinue at h ⊢
  cases hw : transmit s with
  | done t =>
    rw [hw] at h
    rw [show txRun s.env.lineAnswers s = .done t from hw] at key
    rcases persistContinue_activity (advanceCode t) with ⟨-, hs⟩ | e
    · exact ⟨key.1.storeAnswers ▸ hs, t, rfl, persistContinue_waits hs⟩
    · rw [e] at h; cases h
  | failed t => rw [hw] at h; cases h
  | waiting t =>
    rw [hw] at h
    rw [show txRun s.env.lineAnswers s = .waiting t from hw] at key
    rw [key.1.activity, ha] at h
    cases h

/-- A PERSIST does not look at the activity that it ends. -/
theorem persistContinue_persisting (s : State) :
    persistContinue { s with activity := .persisting } = persistContinue s := by
  unfold persistContinue
  cases s.env.storeAnswers with
  | nil => rfl
  | cons a as =>
    simp only
    split <;> rfl

/-- SEND_REPEAT that waits at its PERSIST does with later answers of the store what it does with those answers there
(R206). -/
theorem sendRepeatContinue_laterStore {s : State} (later : List StoreAnswer) (ha : s.activity = .sendRepeating)
    (h : (sendRepeatContinue s).activity = .persisting) :
    sendRepeatContinue (s.withStoreAnswers (s.env.storeAnswers ++ later))
      = persistContinue ((sendRepeatContinue s).withStoreAnswers later) := by
  obtain ⟨hs, t, hw, e⟩ := sendRepeatContinue_persisting ha h
  have sent : transmit (s.withStoreAnswers later) = .done (t.withStoreAnswers later) :=
    txRun_done_withStoreAnswers later hw
  rw [hs, List.nil_append, e]
  calc sendRepeatContinue (s.withStoreAnswers later)
      = persistContinue (advanceCode (t.withStoreAnswers later)) := by rw [sendRepeatContinue, sent]
    _ = _ := (persistContinue_persisting (advanceCode (t.withStoreAnswers later))).symm

/-- SEND_REPEAT that has not ended at once has passed its two tests (R79, R182). -/
theorem exec_sendRepeat_started {s t : State} {cmd : Nibble} {reps : Nat}
    (h : exec (.sendRepeat cmd reps) s = .next t) (ht : t.activity ≠ .idle) :
    ∃ c, s.cfg.codes.commandOf cmd = some c ∧ s.remote.valid = true
      ∧ t = sendRepeatContinue (sendRepeatStart c cmd reps (accept s)) := by
  cases hc : s.cfg.codes.commandOf cmd with
  | none =>
    rw [exec, execSendRepeat, sendRepeatOperation_reserved (s := accept s) reps hc] at h
    cases h
    exact absurd rfl ht
  | some c =>
    by_cases hr : s.remote.valid = true
    · rw [exec_sendRepeat_starts reps hc hr] at h
      cases h
      exact ⟨c, rfl, hr, rfl⟩
    · have refused : sendRepeatOperation cmd reps (accept s) = raise .buildError (accept s) := by
        simp [sendRepeatOperation, operandCommand, hc, hr]
      rw [exec, execSendRepeat, refused] at h
      cases h
      exact absurd rfl ht

/-- Settles O27: the start of a send does not look at the answers, and what waits goes on with the later ones. -/
theorem answersMayComeLater : Obligations.AnswersMayComeLater := by
  refine ⟨fun s t frame reps later run ha => ?_, fun s t cmd reps later run ha => ?_,
    fun s t cmd reps later run ha => ?_⟩
  · cases run
    exact congrArg Host.Outcome.next
      (sendContinue_later (s := sendStart (Frame.ofBits frame) reps s) later ha)
  · obtain ⟨c, hc, hr, rfl⟩ := exec_sendRepeat_started run (by simp [ha])
    rw [exec_sendRepeat_starts (s := s.withLineAnswers (s.env.lineAnswers ++ later)) reps hc hr]
    exact congrArg Host.Outcome.next
      (sendRepeatContinue_later (s := sendRepeatStart c cmd reps (accept s)) later ha)
  · obtain ⟨c, hc, hr, rfl⟩ := exec_sendRepeat_started run (by simp [ha])
    rw [exec_sendRepeat_starts (s := s.withStoreAnswers (s.env.storeAnswers ++ later)) reps hc hr]
    exact congrArg Host.Outcome.next
      (sendRepeatContinue_laterStore (s := sendRepeatStart c cmd reps (accept s)) later rfl ha)

/-! ### A symbol that fails or waits -/

/-- A failure in a symbol ends it there (R165). -/
theorem symbolContinue_fails {ops : List LineOp} {j : Nat} {op : LineOp} {reached : Bool} {spent : Nat}
    {rest : List LineAnswer} {s : State} (hop : ops[j]? = some op)
    (h : s.env.lineAnswers = allOk j ++ .fail reached spent :: rest) :
    symbolContinue ops s = raise .transmitError (afterFail (ops.take j) op reached spent rest s) := by
  rw [symbolContinue, performOps_fails ops j op reached spent rest s hop h]
  rfl

/-- A symbol with answers missing waits at its next operation (R141). -/
theorem symbolContinue_waits {ops : List LineOp} {j : Nat} {s : State} (hj : j < ops.length)
    (h : s.env.lineAnswers = allOk j) :
    symbolContinue ops s =
      { afterOk (ops.take j) [] s with
        status := { s.status with busy := true }, activity := .symbol (ops.drop j) } := by
  rw [symbolContinue, performOps_waits ops j s hj h]
  rfl

theorem linePort_symbol {s : State} {left : List LineOp} (h : s.activity = .symbol left) : linePort s = left.head? := by
  cases left <;> simp [linePort, h]

/-- Settles O30: the list form stops at the failure, or at the first operation without an answer. -/
theorem symbolsAbortOrWait : Obligations.SymbolsAbortOrWait := by
  intro s b j op hop
  refine ⟨fun reached spent rest h => ?_, fun h => ?_⟩
  · have line := afterFail_lineLeft ((bitOps s.cfg b).take j) op reached spent rest s
    refine ⟨_, exec_symbol b s, ?_⟩
    rw [symbolContinue_fails hop h]
    refine ⟨afterFail_trace .., line, rfl, rfl, ?_, ?_, ?_, ?_, ?_, ?_, ?_, ?_⟩ <;> simp [afterFail, afterOk]
  · have hj : j < (bitOps s.cfg b).length := (List.getElem?_eq_some_iff.1 hop).1
    refine ⟨_, exec_symbol b s, ?_⟩
    rw [symbolContinue_waits hj h]
    refine ⟨rfl, rfl, rfl, rfl, rfl, ?_, rfl, rfl, rfl, rfl, rfl, rfl, rfl, rfl⟩
    rw [linePort_symbol rfl, List.head?_drop, hop]

end Sys2Proof.Machine
end

section
/-!
SUPPORT. The sequencer: CREATE and SEND_REPEAT to each of their ends, and chains of successful sends.
-/

namespace Sys2Proof.Machine

/-! ### CREATE, and SEND_REPEAT without a remote -/

theorem exec_create (key : Byte) (addr : Addr) (rc : Code) (s : State) :
    exec (.create key addr rc) s = .next (createOperation key addr rc (accept s)) := rfl

/-- Settles O31: the acceptance leaves no mark once the operation has completed. -/
theorem createCompletes : Obligations.CreateCompletes :=
  fun s key addr rc => exec_create key addr rc s

/-- SEND_REPEAT of a command's nibble is refused without a remote (R182). -/
theorem sendRepeatOperation_noRemote {s : State} {cmd : Nibble} {c : Command} (reps : Nat)
    (hc : s.cfg.codes.commandOf cmd = some c) (hr : s.remote.valid = false) :
    sendRepeatOperation cmd reps s = raise .buildError s := by
  simp [sendRepeatOperation, operandCommand, hc, hr]

/-- Settles O17: the nibble is tested first, then the remote. -/
theorem sendRepeatWithoutRemoteIsBuildError : Obligations.SendRepeatWithoutRemoteIsBuildError := by
  intro s cmd reps hr
  refine ⟨fun c hc => ?_, fun hc => ?_⟩
  · rw [exec, execSendRepeat, sendRepeatOperation_noRemote (s := accept s) reps hc hr, raise_accept]
  · rw [exec, execSendRepeat, sendRepeatOperation_reserved (s := accept s) reps hc, raise_accept]

/-! ### The PERSIST of SEND_REPEAT, answered -/

/-- With an entry and a success of the store the PERSIST writes the code and SEND_REPEAT completes `OK` (R186, R187). -/
theorem persistContinue_succeeds {s : State} {e : StoreEntry} {as : List StoreAnswer}
    (hl : Store.lookup s.remote.address s.store = some e) (h : s.env.storeAnswers = .ok :: as) :
    persistContinue s = complete .ok none
      (answerCore (.success, Store.overwrite s.remote.address s.remote.rollingCode s.store) (s.withStoreAnswers as)) := by
  simp only [persistContinue, h, Store.persist_ok hl]

/-- Without an entry, or with a failure of the store, SEND_REPEAT ends with `StorageError` (R188, R203, R204). -/
theorem persistContinue_fails {s : State} {a : StoreAnswer} {as : List StoreAnswer}
    (hf : Store.lookup s.remote.address s.store = none ∨ a ≠ .ok) (h : s.env.storeAnswers = a :: as) :
    persistContinue s = raise .storageError
      (answerCore (Store.persist s.remote.address s.remote.rollingCode a s.store) (s.withStoreAnswers as)) := by
  simp only [persistContinue, h]
  cases hl : Store.lookup s.remote.address s.store with
  | none => rw [Store.persist_of_none hl]
  | some e => rw [Store.persist_fails hl _ (hf.resolve_left (by simp [hl]))]

/-- Settles O32: the whole send goes out, then the PERSIST of the advanced code succeeds. -/
theorem sendRepeatCompletes : Obligations.SendRepeatCompletes := by
  intro s cmd reps c e rest as hv hc hr hl hline hstore
  obtain ⟨p, hp, run⟩ := exec_sendRepeat_sent hv hc hr hline
  rw [persistContinue_succeeds (s := repeatSent s cmd reps c rest p) hl hstore] at run
  have written : Store.lookup s.remote.address (Store.overwrite s.remote.address (s.remote.rollingCode + 1) s.store)
      = some { e with rollingCode := s.remote.rollingCode + 1 } := by
    rw [Store.lookup_overwrite_self, hl, Option.map_some]
  exact ⟨_, run, rfl, rfl, level_send s.txOut s.cfg (remoteFrame s c) reps, hp, rfl, rfl, rfl, rfl, rfl, rfl, written,
    rfl, rfl, rfl, by constructor <;> rfl⟩

/-- Settles O34: the whole send goes out, then the PERSIST of the advanced code fails. -/
theorem storageErrorKeepsTheAdvance : Obligations.StorageErrorKeepsTheAdvance := by
  intro s cmd reps c rest a as hv hc hr hline hstore hf
  obtain ⟨p, -, run⟩ := exec_sendRepeat_sent hv hc hr hline
  rw [persistContinue_fails (s := repeatSent s cmd reps c rest p) hf hstore] at run
  refine ⟨_, run, rfl, rfl, level_send s.txOut s.cfg (remoteFrame s c) reps, rfl, rfl, rfl, rfl, rfl, rfl,
    fun hl => ?_, fun e hl => ?_, rfl, rfl, by constructor <;> rfl⟩
  · simp [repeatSent, afterOk, sendRepeatStart, Store.persist_of_none hl]
  · simp [repeatSent, afterOk, sendRepeatStart, Store.persist_fails hl _ (hf.resolve_left (by simp [hl]))]

/-! ### SEND_REPEAT that the line fails -/

theorem lineKeeps_afterOk (ops : List LineOp) (rest : List LineAnswer) (s : State) :
    LineKeeps s (afterOk ops rest s) := by
  constructor <;> simp [afterOk]

theorem lineKeeps_afterFail (before : List LineOp) (op : LineOp) (reached : Bool) (spent : Nat) (rest : List LineAnswer)
    (s : State) : LineKeeps s (afterFail before op reached spent rest s) :=
  (lineKeeps_afterOk before rest s).trans (lineKeeps_performOp op _ _)

/-- Settles O33: the transmit step stops at the failure, before the advance and the PERSIST. -/
theorem transmitErrorKeepsTheCode : Obligations.TransmitErrorKeepsTheCode := by
  intro s cmd reps j c op reached spent rest hv hc hr hop hline
  obtain ⟨p, run⟩ := exec_sendRepeat_fails hv hc hr hop hline
  have line := lineKeeps_afterFail ((repeatOpsOf s c reps).take j) op reached spent rest
    (sendRepeatStart c cmd reps (accept s))
  exact ⟨_, run, afterFail_trace .., rfl, rfl, rfl, rfl, line.latch, line.remote, line.store, line.storeAnswers,
    line.sendOnlyKeeps.storeRsp, congrArg Env.lineAnswers (afterFail_env ..),
    { line.sendOnlyKeeps.toSendKeeps with }⟩

/-! ### What a tick runs -/

/-- A tick that takes no request goes on; one that takes a request reports its rejection, or runs its instruction. -/
theorem step_tick_cases {s t : State} (run : step s = .next t) (hl : s.landing = .tick) :
    (s.accepting = none ∧ t = goOn ((clearPorts s).withInputs s.env.inputs.tail))
      ∨ (s.running = none ∧ ∃ code, t = raise code s.atExec)
      ∨ ∃ i, s.running = some i ∧ exec i s.atExec = .next t := by
  obtain ⟨hv, hw, -⟩ := step_next run
  cases ha : s.accepting with
  | none =>
    rw [step_goesOn hv hw hl ha] at run
    cases run
    exact .inl ⟨rfl, rfl⟩
  | some w =>
    rw [step_accepting hv hw ha] at run
    have hcfg : s.atExec.cfg = s.cfg := rfl
    cases hd : decode s.cfg.codes w with
    | ok i =>
      by_cases hi : i.wellFormed s.cfg = true
      · rw [runWord_eq_exec (s := s.atExec) hd hi] at run
        exact .inr (.inr ⟨i, running_of_accepting ha hd, run⟩)
      · simp [runWord, hcfg, hd, hi] at run
    | error e =>
      have hr : s.running = none := by simp [State.running, ha, hd]
      rcases runWord_cases run with ⟨code, rfl⟩ | ⟨i, hi, -, -⟩
      · exact .inr (.inl ⟨hr, code, rfl⟩)
      · exact absurd (hd.symm.trans hi) (by simp)

/-- An instruction that the next step runs is run at a tick (R42). -/
theorem exec_of_running {s t : State} {i : Instr} (hi : s.running = some i) (run : step s = .next t) :
    exec i s.atExec = .next t := by
  have taken : s.accepting ≠ none := fun ha => by simp [State.running, ha] at hi
  obtain ⟨w, ha⟩ := Option.ne_none_iff_exists'.1 taken
  rcases step_tick_cases run (accepting_some ha).1 with ⟨hn, -⟩ | ⟨hn, -⟩ | ⟨j, hj, hx⟩
  · exact absurd hn taken
  · rw [hn] at hi; cases hi
  · rw [hi] at hj; cases hj; exact hx

/-- With an operation in progress a tick goes on with it, or takes a transaction towards the store, which does not touch the
block (R42; log 15). -/
theorem step_tick_of_busy {s t : State} (run : step s = .next t) (hl : s.landing = .tick)
    (hb : s.activity.ownsLine = true) :
    t = goOn ((clearPorts s).withInputs s.env.inputs.tail) ∨ BlockKept s t := by
  obtain ⟨hv, hw, -⟩ := step_next run
  cases ha : s.accepting with
  | none =>
    rw [step_goesOn hv hw hl ha] at run
    cases run
    exact .inl rfl
  | some w =>
    obtain ⟨-, -, -, -, hstore, -⟩ := takeRequest_some (accepting_some ha).2
    obtain ⟨txn, hrun⟩ := runWord_storeWord (hstore hb) s.atExec
    rw [step_accepting hv hw ha, hrun] at run
    cases run
    exact .inr { (hostIssue_does txn s.atExec).1.blockKept rfl with }

/-! ### One SEND_REPEAT, step by step -/

/-- The store entry of the remote's address has the code of the register (R191). -/
def CodeStored (s : State) : Prop :=
  ∃ e, Store.lookup s.remote.address s.store = some e ∧ e.rollingCode = s.remote.rollingCode

/-- After an overwrite with the register's code an entry that is there has that code (R202). -/
theorem codeStored_of_overwrite {s : State} {e : StoreEntry} {table : List StoreEntry}
    (hl : Store.lookup s.remote.address table = some e)
    (hs : s.store = Store.overwrite s.remote.address s.remote.rollingCode table) : CodeStored s :=
  ⟨{ e with rollingCode := s.remote.rollingCode }, by rw [hs, Store.lookup_overwrite_self, hl, Option.map_some], rfl⟩

/-- SEND_REPEAT of the remote with the address `addr` and the code `rc`, in progress or at its end: the frame carries `rc`,
the register has it until the send is out and the next code from then on, and a success leaves that code in the store (R184
to R187). -/
structure SendsCode (addr : Addr) (rc : Code) (s : State) : Prop where
  address : s.remote.address = addr
  sending : s.activity = .sendRepeating → carriedCode s.latch.frame = rc ∧ s.remote.rollingCode = rc
  persisting : s.activity = .persisting → carriedCode s.latch.frame = rc ∧ s.remote.rollingCode = rc + 1
  ended : s.activity = .idle → s.status.result = .ok →
    carriedCode s.latch.frame = rc ∧ s.remote.rollingCode = rc + 1 ∧ CodeStored s

/-- An error ends SEND_REPEAT without a success. -/
theorem sendsCode_raise {addr : Addr} {s : State} {code : ResultCode} (ha : s.remote.address = addr) (hc : code ≠ .ok)
    (rc : Code) : SendsCode addr rc (raise code s) where
  address := ha
  sending h := by cases h
  persisting h := by cases h
  ended _ h := absurd h hc

/-- From the PERSIST on: it waits, or ends, with a success only after the write (R186). -/
theorem sendsCode_persistContinue {s : State} {rc : Code} (hf : carriedCode s.latch.frame = rc)
    (hr : s.remote.rollingCode = rc + 1) : SendsCode s.remote.address rc (persistContinue s) := by
  obtain ⟨-, remote, latch, -, ⟨waits, -⟩ | ⟨idle, -, -, success⟩⟩ := persistContinue_does s
  · rw [waits]
    exact ⟨rfl, fun h => (by cases h), fun _ => ⟨hf, hr⟩, fun h => (by cases h)⟩
  · refine ⟨by rw [remote], fun h => ?_, fun h => ?_, fun _ h => ⟨by rw [latch, hf], by rw [remote, hr], ?_⟩⟩
    · rw [idle] at h; cases h
    · rw [idle] at h; cases h
    · obtain ⟨hs, e, hl⟩ := success h
      exact codeStored_of_overwrite (by rw [remote, hl]) (by rw [remote, hs])

/-- From the transmit step on: the line fails, or has not answered, or the code advances (R184, R185). -/
theorem sendsCode_sendRepeatContinue {addr : Addr} {rc : Code} {s : State} (h : SendsCode addr rc s)
    (ha : s.activity = .sendRepeating) : SendsCode addr rc (sendRepeatContinue s) := by
  obtain ⟨hf, hr⟩ := h.sending ha
  have key := txRun_cases s.env.lineAnswers s
  unfold sendRepeatContinue transmit
  cases hw : txRun s.env.lineAnswers s with
  | done t =>
    rw [hw] at key
    obtain ⟨kept, -⟩ := key
    have next := sendsCode_persistContinue (s := advanceCode t) (rc := rc) (by simp [kept.latch, hf])
      (by simp [kept.remote, hr])
    rwa [advanceCode_remote, kept.remote, h.address] at next
  | failed t =>
    rw [hw] at key
    exact sendsCode_raise (by rw [key.remote, h.address]) (by decide) rc
  | waiting t =>
    rw [hw] at key
    obtain ⟨kept, -⟩ := key
    have hact : t.activity = .sendRepeating := kept.activity.trans ha
    exact ⟨by rw [kept.remote, h.address], fun _ => by rw [kept.latch, kept.remote]; exact ⟨hf, hr⟩,
      fun e => by (rw [hact] at e; cases e), fun e => by (rw [hact] at e; cases e)⟩

/-- SEND_REPEAT once accepted: an error, or its transmit step with the frame of the register's code (R79, R182, R183). -/
theorem sendsCode_sendRepeatOperation (cmd : Nibble) (reps : Nat) (s : State) :
    SendsCode s.remote.address s.remote.rollingCode (sendRepeatOperation cmd reps s) := by
  cases hc : s.cfg.codes.commandOf cmd with
  | none => rw [sendRepeatOperation_reserved reps hc]; exact sendsCode_raise rfl (by decide) _
  | some c =>
    cases hr : s.remote.valid with
    | false => rw [sendRepeatOperation_noRemote reps hc hr]; exact sendsCode_raise rfl (by decide) _
    | true =>
      rw [sendRepeatOperation_starts reps hc hr]
      exact sendsCode_sendRepeatContinue (s := sendRepeatStart c cmd reps s)
        ⟨rfl, fun _ => ⟨carriedCode_build .., rfl⟩, fun h => (by cases h), fun h => (by cases h)⟩ rfl

/-- Going on with SEND_REPEAT goes on from its transmit step or its PERSIST. -/
theorem sendsCode_goOn {addr : Addr} {rc : Code} {s : State} (h : SendsCode addr rc s)
    (busy : s.activity = .sendRepeating ∨ s.activity = .persisting) : SendsCode addr rc (goOn s) := by
  rcases busy with b | b
  · rw [goOn_sendRepeating b]
    exact sendsCode_sendRepeatContinue h b
  · obtain ⟨hf, hr⟩ := h.persisting b
    rw [goOn_persisting b, ← h.address]
    exact sendsCode_persistContinue hf hr

/-- With SEND_REPEAT in progress every step but a reset goes on with it or leaves it as it is. -/
theorem sendsCode_step {addr : Addr} {rc : Code} {s t : State} (h : SendsCode addr rc s)
    (busy : s.activity = .sendRepeating ∨ s.activity = .persisting) (noReset : s.landing ≠ .reset)
    (run : step s = .next t) : SendsCode addr rc t := by
  have kept : BlockKept s t → SendsCode addr rc t := fun k =>
    ⟨by rw [k.remote, h.address], by rw [k.activity, k.latch, k.remote]; exact h.sending,
      by rw [k.activity, k.latch, k.remote]; exact h.persisting,
      fun e => by rcases busy with b | b <;> (rw [k.activity, b] at e; cases e)⟩
  by_cases hl : s.landing = .tick
  · rcases step_tick_of_busy run hl (by rcases busy with b | b <;> rw [b] <;> rfl) with rfl | k
    · exact sendsCode_goOn (s := (clearPorts s).withInputs s.env.inputs.tail) { h with } busy
    · exact kept k
  · exact kept (step_blockKept run hl noReset)

/-- The steps of a SEND_REPEAT in progress bring it to its end. -/
theorem SendSteps.sendsCode {addr : Addr} {rc : Code} {s u : State} (steps : SendSteps s u) (h : SendsCode addr rc s) :
    SendsCode addr rc u ∧ u.activity = .idle := by
  induction steps with
  | ended s idle => exact ⟨h, idle⟩
  | more s t u busy noReset _ run _ ih => exact ih (sendsCode_step h busy noReset run)

/-! ### Chains of successful sends -/

/-- An input but a tick leaves the store unless it writes it from outside the block (R65, R203). -/
theorem step_store_of_input {s t : State} (run : step s = .next t) (hl : s.landing ≠ .tick)
    (hs : s.storeWrittenOutside = false) : t.store = s.store := by
  obtain ⟨-, -, lands⟩ := step_next run
  cases hx : s.landing with
  | tick => exact absurd hx hl
  | storeEdit table => simp [State.storeWrittenOutside, hx] at hs
  | read n => rw [hx] at lands; obtain ⟨v, -, rfl⟩ := hostRead_next lands; rfl
  | hostAnswer a =>
    rw [hx] at lands
    cases lands
    rcases (hostSettle_does a ((clearPorts s).withInputs s.env.inputs.tail)).2 with e | ⟨addr, rc, rest, htxns, -⟩
    · exact e
    · have htxns' : s.env.hostTxns = .persist addr rc :: rest := htxns
      simp [State.storeWrittenOutside, State.storeWrite, hx, htxns'] at hs
  | reset | request | lineAnswer | storeAnswer => rw [hx] at lands; cases lands; rfl

/-- A step between two sends leaves the remote and the store (R191). -/
theorem step_between_sends {s t : State} (idle : s.activity = .idle)
    (noInstr : s.running = none ∨ s.running = some .load) (noReset : s.landing ≠ .reset)
    (noEdit : s.storeWrittenOutside = false) (run : step s = .next t) : t.remote = s.remote ∧ t.store = s.store := by
  by_cases hl : s.landing = .tick
  · rcases step_tick_cases run hl with ⟨-, rfl⟩ | ⟨-, code, rfl⟩ | ⟨i, hi, hx⟩
    · rw [goOn_idle (s := (clearPorts s).withInputs s.env.inputs.tail) idle]
      exact ⟨rfl, rfl⟩
    · exact ⟨rfl, rfl⟩
    · obtain rfl : i = .load := by simpa [hi] using noInstr
      cases hx
      obtain ⟨d, e | ⟨addr, rc, htxn, -⟩⟩ := hostIssue_does .load s.atExec
      · exact ⟨d.remote, e⟩
      · cases htxn
  · exact ⟨(step_blockKept run hl noReset).remote, step_store_of_input run hl noEdit⟩

/-- What a chain of successful sends has done: one code a send, in order, and the last one's successor stored (R191). -/
structure SentCodes (codes : List Code) (s t : State) : Prop where
  advanced : t.remote.rollingCode = s.remote.rollingCode + BitVec.ofNat 16 codes.length
  carried : codes = (List.range codes.length).map (fun i => s.remote.rollingCode + BitVec.ofNat 16 i)
  address : t.remote.address = s.remote.address
  stored : codes ≠ [] ∨ CodeStored s → CodeStored t

/-- The code `n` places after the next one (R193). -/
theorem code_after_succ (rc : Code) (n : Nat) : rc + 1 + BitVec.ofNat 16 n = rc + BitVec.ofNat 16 (n + 1) := by
  rw [Nat.add_comm n 1, BitVec.ofNat_add, BitVec.add_assoc]
  rfl

/-- A send before a chain of sends. -/
theorem SentCodes.cons {codes : List Code} {s u v : State} (h : SentCodes codes u v)
    (ha : u.remote.address = s.remote.address) (hr : u.remote.rollingCode = s.remote.rollingCode + 1)
    (hs : CodeStored u) : SentCodes (s.remote.rollingCode :: codes) s v where
  advanced := by
    rw [h.advanced, hr, code_after_succ, List.length_cons]
  carried := by
    have tail := h.carried
    simp only [hr, code_after_succ] at tail
    rw [List.length_cons, List.range_succ_eq_map, List.map_cons, List.map_map]
    exact congrArg₂ _ (by simp) tail
  address := h.address.trans ha
  stored _ := h.stored (.inr hs)

theorem OkSends.sentCodes {codes : List Code} {s t : State} (h : OkSends codes s t) : SentCodes codes s t := by
  induction h with
  | none s => exact ⟨by simp, rfl, rfl, fun h => h.resolve_left (by simp)⟩
  | pause s t u codes idle noInstr noReset noEdit run _ ih =>
    obtain ⟨hr, hs⟩ := step_between_sends idle noInstr noReset noEdit run
    have same : CodeStored t ↔ CodeStored s := by rw [CodeStored, CodeStored, hr, hs]
    exact ⟨hr ▸ ih.advanced, hr ▸ ih.carried, hr ▸ ih.address, fun h => ih.stored (h.imp_right same.2)⟩
  | send cmd reps s t u v codes instr run ends ok _ ih =>
    have start : SendsCode s.remote.address s.remote.rollingCode t := by
      cases exec_of_running instr run
      exact sendsCode_sendRepeatOperation cmd reps (accept s.atExec)
    obtain ⟨sent, idle⟩ := ends.sendsCode start
    obtain ⟨hf, hr, hs⟩ := sent.ended idle ok
    rw [hf]
    exact ih.cons sent.address hr hs

/-- Settles O36: by induction on the chain, each send by its steps. -/
theorem nSendsAdvanceByN : Obligations.NSendsAdvanceByN := by
  intro codes s t h
  obtain ⟨advanced, carried, address, stored⟩ := h.sentCodes
  exact ⟨advanced, carried, address, fun hne => stored (.inl hne)⟩

end Sys2Proof.Machine
end

section
/-!
SUPPORT. The store: an overwrite as a write to one entry, the host side's LOAD, PERSIST, LOAD, the steps that write the
table, and the operations that wait for a port.
-/

namespace Sys2Proof.Machine

/-! ### One entry, and the host side's round trip -/

/-- Settles O41: the form of the table, and a read after the write at the same and at another address. -/
theorem overwriteTouchesOneEntry : Obligations.OverwriteTouchesOneEntry := fun table addr other rc =>
  ⟨Store.overwrite_map_name addr rc table, Store.overwrite_map_address addr rc table,
    Store.lookup_overwrite_self addr rc table, Store.lookup_overwrite_other addr other rc table,
    (Store.overwrite_wf addr rc table).trans⟩

/-- Settles O42: three transactions answered at once, each in the state that the one before it left. -/
theorem loadPersistLoadRoundTrips : Obligations.LoadPersistLoadRoundTrips := by
  intro s addr rc e as he ht ha
  exact ⟨_, _, _, loadCompletes s _ ht ha, persistCompletes _ addr rc e _ he ht rfl, loadCompletes _ as ht rfl,
    rfl, rfl⟩

/-! ### What writes the table -/

/-- An instruction leaves the table, or overwrites an entry as SEND_REPEAT, with the advanced code, or as the host side's
PERSIST (R186, R202). -/
theorem exec_store {i : Instr} {s t : State} (run : exec i s = .next t) :
    t.store = s.store
      ∨ (∃ cmd reps, i = .sendRepeat cmd reps)
        ∧ t.store = Store.overwrite s.remote.address (s.remote.rollingCode + 1) s.store
      ∨ ∃ addr rc, i = .persist addr rc ∧ t.store = Store.overwrite addr rc s.store := by
  cases exec_next run with
  | command i c key cs rc addr =>
    obtain ⟨-, -, -, -, -, -, hs⟩ := buildOperation_does key (s.cfg.codes.code c) rc addr (accept s)
    exact .inl hs
  | build key cmd rc addr =>
    obtain ⟨-, -, -, -, -, -, hs⟩ := buildOperation_does key cmd rc addr (accept s)
    exact .inl hs
  | bit1 | bit0 =>
    obtain ⟨-, -, -, hs⟩ := symbolContinue_does _ s
    exact .inl hs
  | create key addr rc => exact .inl rfl
  | send frame reps =>
    obtain ⟨-, -, -, hs⟩ := sendContinue_does (sendStart (Frame.ofBits frame) reps s)
    exact .inl hs
  | sendRepeat cmd reps =>
    rcases sendRepeatOperation_cases cmd reps (accept s) with ⟨code, e⟩ | ⟨c, -, e⟩ <;> rw [e]
    · exact .inl rfl
    · obtain ⟨-, -, -, hs⟩ := sendRepeatContinue_does (sendRepeatStart c cmd reps (accept s))
      exact hs.imp_right fun h => .inl ⟨⟨cmd, reps, rfl⟩, h⟩
  | load =>
    rcases (hostIssue_does .load s).2 with hs | ⟨addr, rc, htxn, -⟩
    · exact .inl hs
    · cases htxn
  | persist addr rc =>
    rcases (hostIssue_does (.persist addr rc) s).2 with hs | ⟨addr, rc, htxn, hs⟩
    · exact .inl hs
    · cases htxn; exact .inr (.inr ⟨addr, rc, rfl, hs⟩)

/-- Going on leaves the table, or overwrites the remote's entry: from the transmit step of SEND_REPEAT with the advanced
code, from its PERSIST with the code (R186). -/
theorem goOn_store (s : State) :
    (goOn s).store = s.store
      ∨ s.activity = .sendRepeating
        ∧ (goOn s).store = Store.overwrite s.remote.address (s.remote.rollingCode + 1) s.store
      ∨ s.activity = .persisting
        ∧ (goOn s).store = Store.overwrite s.remote.address s.remote.rollingCode s.store := by
  cases h : s.activity with
  | idle => rw [goOn_idle h]; exact .inl rfl
  | sending =>
    obtain ⟨-, -, -, hs⟩ := sendContinue_does s
    rw [goOn_sending h]
    exact .inl hs
  | sendRepeating =>
    obtain ⟨-, -, -, hs⟩ := sendRepeatContinue_does s
    rw [goOn_sendRepeating h]
    exact hs.imp_right fun e => .inl ⟨rfl, e⟩
  | persisting =>
    obtain ⟨-, -, -, hs, -⟩ := persistContinue_does s
    rw [goOn_persisting h]
    exact hs.imp_right fun e => .inr ⟨rfl, e⟩
  | symbol left =>
    obtain ⟨-, -, -, hs⟩ := symbolContinue_does left s
    rw [goOn_symbol h]
    exact .inl hs

/-- An instruction that runs stands in a request taken at a tick (R42). -/
theorem accepting_of_running {s : State} {i : Instr} (hi : s.running = some i) :
    s.landing = .tick ∧ ∃ w, s.accepting = some w := by
  cases ha : s.accepting with
  | none => simp [State.running, ha] at hi
  | some w => exact ⟨(accepting_some ha).1, w, rfl⟩

theorem storeWrite_of_sendRepeat {s : State} {cmd : Nibble} {reps : Nat} (hi : s.running = some (.sendRepeat cmd reps)) :
    s.storeWrite = some (s.remote.address, s.remote.rollingCode + 1) := by
  obtain ⟨hl, w, ha⟩ := accepting_of_running hi
  simp [State.storeWrite, hl, ha, hi]

theorem storeWrite_of_persist {s : State} {addr : Addr} {rc : Code} (hi : s.running = some (.persist addr rc)) :
    s.storeWrite = some (addr, rc) := by
  obtain ⟨hl, w, ha⟩ := accepting_of_running hi
  simp [State.storeWrite, hl, ha, hi]

theorem storeWrite_of_sendRepeating {s : State} (hl : s.landing = .tick) (ha : s.accepting = none)
    (h : s.activity = .sendRepeating) : s.storeWrite = some (s.remote.address, s.remote.rollingCode + 1) := by
  simp [State.storeWrite, hl, ha, h]

theorem storeWrite_of_persisting {s : State} (hl : s.landing = .tick) (ha : s.accepting = none)
    (h : s.activity = .persisting) : s.storeWrite = some (s.remote.address, s.remote.rollingCode) := by
  simp [State.storeWrite, hl, ha, h]

theorem storeWrite_of_hostAnswer {s : State} {a : StoreAnswer} {addr : Addr} {rc : Code} {rest : List StoreTxn}
    (hl : s.landing = .hostAnswer a) (ht : s.env.hostTxns = .persist addr rc :: rest) :
    s.storeWrite = some (addr, rc) := by
  simp [State.storeWrite, hl, ht]

/-- At a tick the core goes on, reports a rejection, or runs an instruction, and writes the table only where it may. -/
theorem step_tick_store {s t : State} (run : step s = .next t) (hl : s.landing = .tick) :
    t.store = s.store ∨ ∃ addr rc, s.storeWrite = some (addr, rc) ∧ t.store = Store.overwrite addr rc s.store := by
  rcases step_tick_cases run hl with ⟨ha, rfl⟩ | ⟨-, code, rfl⟩ | ⟨i, hi, hx⟩
  · rcases goOn_store ((clearPorts s).withInputs s.env.inputs.tail) with hs | ⟨h, hs⟩ | ⟨h, hs⟩
    · exact .inl hs
    · exact .inr ⟨_, _, storeWrite_of_sendRepeating hl ha h, hs⟩
    · exact .inr ⟨_, _, storeWrite_of_persisting hl ha h, hs⟩
  · exact .inl rfl
  · rcases exec_store hx with hs | ⟨⟨cmd, reps, rfl⟩, hs⟩ | ⟨addr, rc, rfl, hs⟩
    · exact .inl hs
    · exact .inr ⟨_, _, storeWrite_of_sendRepeat hi, hs⟩
    · exact .inr ⟨addr, rc, storeWrite_of_persist hi, hs⟩

/-- Settles O56: a tick by what it runs, an answer to the host side by the transaction it answers; no other input but a
store edit touches the table. -/
theorem storeChangesOnlyByPersist : Obligations.StoreChangesOnlyByPersist := by
  intro s t run hedit
  cases hl : s.landing with
  | tick => exact step_tick_store run hl
  | storeEdit table => exact absurd hl (hedit table)
  | hostAnswer a =>
    obtain ⟨-, -, lands⟩ := step_next run
    rw [hl] at lands
    cases lands
    exact (hostSettle_does a _).2.imp_right fun ⟨addr, rc, _, ht, hs⟩ =>
      ⟨addr, rc, storeWrite_of_hostAnswer hl ht, hs⟩
  | reset | read | request | lineAnswer | storeAnswer =>
    exact .inl (step_store_of_input run (by simp [hl]) (by simp [State.storeWrittenOutside, hl]))

/-! ### Ports that do not answer -/

/-- Without an answer of the line the transmit step waits where it stands (R141). -/
theorem transmit_unanswered {s : State} (h : s.env.lineAnswers = []) : transmit s = .waiting s := by
  have e : s.withLineAnswers [] = s := by rw [← h, withLineAnswers_self]
  rw [transmit, h, txRun, e]

/-- Without an answer of the line the list form waits before its first operation (R141). -/
theorem performOps_unanswered {left : List LineOp} {s : State} (hne : left ≠ []) (h : s.env.lineAnswers = []) :
    performOps left s = .waiting left s := by
  cases left with
  | nil => exact absurd rfl hne
  | cons op left => simp only [performOps, h]

/-- With an operation in progress the block is `BUSY` (R35). -/
theorem Inv.busy {s : State} (h : Inv s) (ha : s.activity ≠ .idle) : s.status.busy = true := by
  rw [h.busyOwns]
  exact Bool.eq_true_of_not_eq_false fun ho => ha (Activity.eq_idle_of_not_ownsLine ho)

/-- Going on without an answer of the port that the operation waits for changes nothing (R206, R239). -/
theorem goOn_unanswered {s : State} (inv : Inv s) (hline : s.activity ≠ .persisting → s.env.lineAnswers = [])
    (hstore : s.activity = .persisting → s.env.storeAnswers = []) : goOn s = s := by
  cases ha : s.activity with
  | idle => exact goOn_idle ha
  | sending => rw [goOn_sending ha, sendContinue, transmit_unanswered (hline (by simp [ha]))]
  | sendRepeating => rw [goOn_sendRepeating ha, sendRepeatContinue, transmit_unanswered (hline (by simp [ha]))]
  | persisting => rw [goOn_persisting ha, persistContinue_waits (hstore ha), ← ha]
  | symbol left =>
    have hbusy : s.status.busy = true := inv.busy (by simp [ha])
    have waits : symbolContinue left s
        = { s with status := { s.status with busy := true }, activity := .symbol left } := by
      rw [symbolContinue, performOps_unanswered (inv.symbolLeft left ha).1 (hline (by simp [ha]))]
    rw [goOn_symbol ha, waits, ← ha, ← hbusy]

/-- Settles O60: the tick takes no request, so the core goes on, and that changes nothing. -/
theorem unansweredPortsLeaveTheBlockWaiting : Obligations.UnansweredPortsLeaveTheBlockWaiting := by
  intro s inv hl ha hact hport
  have legal : Inv ((clearPorts s).withInputs s.env.inputs.tail) := { inv with }
  have waits := goOn_unanswered legal (fun hp => (if_neg hp).mp hport) (fun hp => (if_pos hp).mp hport)
  exact ⟨by rw [step_goesOn inv.cfgValid inv.storeWf hl ha, waits], inv.busy hact⟩

end Sys2Proof.Machine
end

section
/-!
SUPPORT. What raising an error does (R225).
-/

namespace Sys2Proof.Machine

/-- Settles O16: what the error writes, then the registers it keeps, then the rest of the ports. -/
theorem raiseEndsTheOperation : Obligations.RaiseEndsTheOperation := by
  intro code s t
  have ports : t.ports = { s.ports with rsp := some { result := code, frame := none } } := raise_ports code s
  have tx : t.tx = { s.tx with phase := .idle } := raise_tx code s
  refine ⟨raise_status code s, by rw [tx], raise_activity code s, by rw [ports], raise_cfg code s, raise_remote code s,
    raise_latch code s, raise_txOut code s, raise_trace code s, raise_now code s, raise_store code s, raise_env code s,
    raise_draws code s, ?_⟩
  simp only [ports, and_self]

end Sys2Proof.Machine
end
